-- ==== Sys2Proof/Word.lean ====
section
/-! DEFINITION. The word types of the CHIP-8 core: what spec/10_state.md R10 to R21 and spec/30_encoding.md R47 treat as bits. -/

namespace Sys2Proof

/-- A general register, a timer, a memory cell, the immediate `NN` (R5, R10, R16, R18, R47). -/
abbrev Byte := BitVec 8

/-- An instruction word, `I`, `PC`, a stack entry (R5, R12, R13, R15, R45). -/
abbrev Word := BitVec 16

/-- The immediate address `NNN` (R47). -/
abbrev Addr12 := BitVec 12

/-- `FINFO`: 17 bits, because `I + k` can pass 65535 (R21). -/
abbrev Info := BitVec 17

/-- A general register's number, the fields `X` and `Y` (R10, R47). -/
abbrev RegIdx := Fin 16

/-- A sprite's row count, the field `N` (R47, R108). -/
abbrev RowCount := Fin 16

end Sys2Proof
end

