-- ==== Sys2Proof/Config.lean ====
section
/-! DEFINITION. What is fixed for one machine (spec/00_scope.md R5, R6) and the free values (R7). -/

namespace Sys2Proof.Config

/-- `PROG_BASE` (R5): where `LOAD` puts a program, and the reset value of `PC` (R13, R153). -/
def progBase : Nat := 0x200

/-- `PROG_MAX` (R5): the longest image `LOAD` accepts. -/
def progMax : Nat := 3584

/-- The default of the open parameter `FONT` (R6, R35, D8): 16 glyphs of 5 bytes, glyph `d` at `5 * d`.
PRESUMED: the bytes are the spec's own general knowledge (log 1). -/
def defaultFont : Vector Byte 80 := #v[
  0xF0, 0x90, 0x90, 0x90, 0xF0,
  0x20, 0x60, 0x20, 0x20, 0x70,
  0xF0, 0x10, 0xF0, 0x80, 0xF0,
  0xF0, 0x10, 0xF0, 0x10, 0xF0,
  0x90, 0x90, 0xF0, 0x10, 0x10,
  0xF0, 0x80, 0xF0, 0x10, 0xF0,
  0xF0, 0x80, 0xF0, 0x90, 0xF0,
  0xF0, 0x10, 0x20, 0x40, 0x40,
  0xF0, 0x90, 0xF0, 0x90, 0xF0,
  0xF0, 0x90, 0xF0, 0x10, 0xF0,
  0xF0, 0x90, 0xF0, 0x90, 0x90,
  0xE0, 0x90, 0xE0, 0x90, 0xE0,
  0xF0, 0x80, 0x80, 0x80, 0xF0,
  0xE0, 0x90, 0x90, 0x90, 0xE0,
  0xF0, 0x80, 0xF0, 0x80, 0xF0,
  0xF0, 0x80, 0xF0, 0x80, 0x80]

/-- The bytes the environment supplies as `rnd`, one per draw, under no law (R7, R93, D13): a free value,
with no body, so that nothing can be proved of any of them (log 2). -/
opaque rndByte : Nat → Byte

end Sys2Proof.Config
end

