-- ==== Sys2Proof/Syntax.lean ====
section
/-! DEFINITION. The 34 instructions of spec/30_encoding.md R49, one constructor per row of opcode_table.json, operands as R47 types them. -/

namespace Sys2Proof

/-- One constructor per row of R49, in its order. `x`, `y` are the fields X, Y; `n` is N, `nn` is NN, `nnn` is NNN. -/
inductive Instr where
  | cls
  | ret
  | jp (nnn : Addr12)
  | call (nnn : Addr12)
  | seImm (x : RegIdx) (nn : Byte)
  | sneImm (x : RegIdx) (nn : Byte)
  | seReg (x y : RegIdx)
  | ldImm (x : RegIdx) (nn : Byte)
  | addImm (x : RegIdx) (nn : Byte)
  | ldReg (x y : RegIdx)
  | orReg (x y : RegIdx)
  | andReg (x y : RegIdx)
  | xorReg (x y : RegIdx)
  | addReg (x y : RegIdx)
  | sub (x y : RegIdx)
  /-- The field Y is decoded and ignored (R90). -/
  | shr (x y : RegIdx)
  | subn (x y : RegIdx)
  /-- The field Y is decoded and ignored (R92). -/
  | shl (x y : RegIdx)
  | sneReg (x y : RegIdx)
  | ldI (nnn : Addr12)
  | jpV0 (nnn : Addr12)
  | rnd (x : RegIdx) (nn : Byte)
  | drw (x y : RegIdx) (n : RowCount)
  | skp (x : RegIdx)
  | sknp (x : RegIdx)
  | ldVxDt (x : RegIdx)
  | ldVxK (x : RegIdx)
  | ldDtVx (x : RegIdx)
  | ldStVx (x : RegIdx)
  | addI (x : RegIdx)
  | ldF (x : RegIdx)
  | ldB (x : RegIdx)
  | stRegs (x : RegIdx)
  | ldRegs (x : RegIdx)
  deriving DecidableEq, Repr

/-- The decoder's tag (R49): the name opcode_table.json gives the row. -/
def Instr.tag : Instr → String
  | .cls => "CLS"
  | .ret => "RET"
  | .jp _ => "JP"
  | .call _ => "CALL"
  | .seImm _ _ => "SE_IMM"
  | .sneImm _ _ => "SNE_IMM"
  | .seReg _ _ => "SE_REG"
  | .ldImm _ _ => "LD_IMM"
  | .addImm _ _ => "ADD_IMM"
  | .ldReg _ _ => "LD_REG"
  | .orReg _ _ => "OR"
  | .andReg _ _ => "AND"
  | .xorReg _ _ => "XOR"
  | .addReg _ _ => "ADD_REG"
  | .sub _ _ => "SUB"
  | .shr _ _ => "SHR"
  | .subn _ _ => "SUBN"
  | .shl _ _ => "SHL"
  | .sneReg _ _ => "SNE_REG"
  | .ldI _ => "LD_I"
  | .jpV0 _ => "JP_V0"
  | .rnd _ _ => "RND"
  | .drw _ _ _ => "DRW"
  | .skp _ => "SKP"
  | .sknp _ => "SKNP"
  | .ldVxDt _ => "LD_VX_DT"
  | .ldVxK _ => "LD_VX_K"
  | .ldDtVx _ => "LD_DT_VX"
  | .ldStVx _ => "LD_ST_VX"
  | .addI _ => "ADD_I"
  | .ldF _ => "LD_F"
  | .ldB _ => "LD_B"
  | .stRegs _ => "ST_REGS"
  | .ldRegs _ => "LD_REGS"

/-- `Vx` in the assembler syntax of R55: `V0` to `VF`. -/
def regText (x : RegIdx) : String :=
  "V" ++ String.ofList ((Nat.toDigits 16 x.val).map Char.toUpper)

/-- A number in the assembler syntax of R55. -/
def hexText (k : Nat) : String :=
  "0x" ++ String.ofList ((Nat.toDigits 16 k).map Char.toUpper)

/-- The assembler syntax of R55. It has no machine meaning (D15); the ignored field Y of the two shifts is
not written, as in R55's table. -/
def Instr.asm : Instr → String
  | .cls => "CLS"
  | .ret => "RET"
  | .jp nnn => "JP " ++ hexText nnn.toNat
  | .call nnn => "CALL " ++ hexText nnn.toNat
  | .seImm x nn => "SE " ++ regText x ++ ", " ++ hexText nn.toNat
  | .sneImm x nn => "SNE " ++ regText x ++ ", " ++ hexText nn.toNat
  | .seReg x y => "SE " ++ regText x ++ ", " ++ regText y
  | .ldImm x nn => "LD " ++ regText x ++ ", " ++ hexText nn.toNat
  | .addImm x nn => "ADD " ++ regText x ++ ", " ++ hexText nn.toNat
  | .ldReg x y => "LD " ++ regText x ++ ", " ++ regText y
  | .orReg x y => "OR " ++ regText x ++ ", " ++ regText y
  | .andReg x y => "AND " ++ regText x ++ ", " ++ regText y
  | .xorReg x y => "XOR " ++ regText x ++ ", " ++ regText y
  | .addReg x y => "ADD " ++ regText x ++ ", " ++ regText y
  | .sub x y => "SUB " ++ regText x ++ ", " ++ regText y
  | .shr x _ => "SHR " ++ regText x
  | .subn x y => "SUBN " ++ regText x ++ ", " ++ regText y
  | .shl x _ => "SHL " ++ regText x
  | .sneReg x y => "SNE " ++ regText x ++ ", " ++ regText y
  | .ldI nnn => "LD I, " ++ hexText nnn.toNat
  | .jpV0 nnn => "JP V0, " ++ hexText nnn.toNat
  | .rnd x nn => "RND " ++ regText x ++ ", " ++ hexText nn.toNat
  | .drw x y n => "DRW " ++ regText x ++ ", " ++ regText y ++ ", " ++ hexText n.val
  | .skp x => "SKP " ++ regText x
  | .sknp x => "SKNP " ++ regText x
  | .ldVxDt x => "LD " ++ regText x ++ ", DT"
  | .ldVxK x => "LD " ++ regText x ++ ", K"
  | .ldDtVx x => "LD DT, " ++ regText x
  | .ldStVx x => "LD ST, " ++ regText x
  | .addI x => "ADD I, " ++ regText x
  | .ldF x => "LD F, " ++ regText x
  | .ldB x => "LD B, " ++ regText x
  | .stRegs x => "LD [I], " ++ regText x
  | .ldRegs x => "LD " ++ regText x ++ ", [I]"

end Sys2Proof
end

