-- ==== Sys2Proof/WellFormed.lean ====
section
/-! DEFINITION. What must fit before it is an operand, a program image or a key index (spec/30_encoding.md R47, spec/60_exceptions.md R132). -/

namespace Sys2Proof

/-- A register number fits the 4-bit fields X and Y (R47). -/
def regFits (k : Nat) : Bool := k < 16

/-- A row count fits the 4-bit field N (R47). -/
def countFits (k : Nat) : Bool := k < 16

/-- An immediate fits the 8-bit field NN (R47). -/
def byteFits (k : Nat) : Bool := k < 256

/-- An address fits the 12-bit field NNN (R47). -/
def addrFits (k : Nat) : Bool := k < 4096

/-- A program image fits memory from 0x200 (R5, R132, R141); a longer one is LOAD_TOO_LARGE. -/
def imageFits (image : List Byte) : Bool := image.length ≤ Config.progMax

/-- A key index names one of the 16 keys (R132, R139); another one is KEY_INDEX_INVALID. -/
def keyFits (k : Nat) : Bool := k < 16

/-- Every operand fits its field. The operand types of `Instr` already say so: an index out of range cannot be
encoded (R47), and `wellFormed_always` (Laws/Decode.lean) records it. -/
def Instr.wellFormed : Instr → Bool
  | .cls | .ret => true
  | .jp nnn | .call nnn | .ldI nnn | .jpV0 nnn => addrFits nnn.toNat
  | .seImm x nn | .sneImm x nn | .ldImm x nn | .addImm x nn | .rnd x nn => regFits x.val && byteFits nn.toNat
  | .seReg x y | .ldReg x y | .orReg x y | .andReg x y | .xorReg x y | .addReg x y => regFits x.val && regFits y.val
  | .sub x y | .shr x y | .subn x y | .shl x y | .sneReg x y => regFits x.val && regFits y.val
  | .drw x y n => regFits x.val && regFits y.val && countFits n.val
  | .skp x | .sknp x | .ldVxDt x | .ldVxK x | .ldDtVx x | .ldStVx x => regFits x.val
  | .addI x | .ldF x | .ldB x | .stRegs x | .ldRegs x => regFits x.val

end Sys2Proof
end

