-- ==== Sys2Proof/Decode.lean ====
section
/-! DEFINITION. The opcode decoder of spec/30_encoding.md (R45 to R54), total on any bytes, and after it the encoder from the same tables. -/

namespace Sys2Proof

/-- Why no instruction was read. -/
inductive Reject where
  /-- The word matches no row of R49 (R52). The executor runs it as a reported no-op (R65). -/
  | unrecognized (op : Word)
  /-- Fewer than the two bytes of an instruction were given (R45). -/
  | truncated
  deriving DecidableEq, Repr

/-- The nibbles of R46, `n1` highest to `n4` lowest, as numbers. -/
def n1 (op : Word) : Nat := (op.extractLsb' 12 4).toNat
def n2 (op : Word) : Nat := (op.extractLsb' 8 4).toNat
def n3 (op : Word) : Nat := (op.extractLsb' 4 4).toNat
def n4 (op : Word) : Nat := (op.extractLsb' 0 4).toNat

/-- The operand fields of R47: X is `op[11:8]`, Y is `op[7:4]`, N is `op[3:0]`, NN is `op[7:0]`, NNN is `op[11:0]`. -/
def fieldX (op : Word) : RegIdx := (op.extractLsb' 8 4).toFin
def fieldY (op : Word) : RegIdx := (op.extractLsb' 4 4).toFin
def fieldN (op : Word) : RowCount := (op.extractLsb' 0 4).toFin
def fieldNN (op : Word) : Byte := op.extractLsb' 0 8
def fieldNNN (op : Word) : Addr12 := op.extractLsb' 0 12

/-- The decoder of R48: the nibble tuples of R49, each fixed nibble matched exactly (R51, D9; log 9), everything
else unrecognized (R52). -/
def decode (op : Word) : Except Reject Instr :=
  match n1 op, n2 op, n3 op, n4 op with
  | 0x0, 0x0, 0xE, 0x0 => .ok .cls
  | 0x0, 0x0, 0xE, 0xE => .ok .ret
  | 0x1, _, _, _ => .ok (.jp (fieldNNN op))
  | 0x2, _, _, _ => .ok (.call (fieldNNN op))
  | 0x3, _, _, _ => .ok (.seImm (fieldX op) (fieldNN op))
  | 0x4, _, _, _ => .ok (.sneImm (fieldX op) (fieldNN op))
  | 0x5, _, _, 0x0 => .ok (.seReg (fieldX op) (fieldY op))
  | 0x6, _, _, _ => .ok (.ldImm (fieldX op) (fieldNN op))
  | 0x7, _, _, _ => .ok (.addImm (fieldX op) (fieldNN op))
  | 0x8, _, _, 0x0 => .ok (.ldReg (fieldX op) (fieldY op))
  | 0x8, _, _, 0x1 => .ok (.orReg (fieldX op) (fieldY op))
  | 0x8, _, _, 0x2 => .ok (.andReg (fieldX op) (fieldY op))
  | 0x8, _, _, 0x3 => .ok (.xorReg (fieldX op) (fieldY op))
  | 0x8, _, _, 0x4 => .ok (.addReg (fieldX op) (fieldY op))
  | 0x8, _, _, 0x5 => .ok (.sub (fieldX op) (fieldY op))
  | 0x8, _, _, 0x6 => .ok (.shr (fieldX op) (fieldY op))
  | 0x8, _, _, 0x7 => .ok (.subn (fieldX op) (fieldY op))
  | 0x8, _, _, 0xE => .ok (.shl (fieldX op) (fieldY op))
  | 0x9, _, _, 0x0 => .ok (.sneReg (fieldX op) (fieldY op))
  | 0xA, _, _, _ => .ok (.ldI (fieldNNN op))
  | 0xB, _, _, _ => .ok (.jpV0 (fieldNNN op))
  | 0xC, _, _, _ => .ok (.rnd (fieldX op) (fieldNN op))
  | 0xD, _, _, _ => .ok (.drw (fieldX op) (fieldY op) (fieldN op))
  | 0xE, _, 0x9, 0xE => .ok (.skp (fieldX op))
  | 0xE, _, 0xA, 0x1 => .ok (.sknp (fieldX op))
  | 0xF, _, 0x0, 0x7 => .ok (.ldVxDt (fieldX op))
  | 0xF, _, 0x0, 0xA => .ok (.ldVxK (fieldX op))
  | 0xF, _, 0x1, 0x5 => .ok (.ldDtVx (fieldX op))
  | 0xF, _, 0x1, 0x8 => .ok (.ldStVx (fieldX op))
  | 0xF, _, 0x1, 0xE => .ok (.addI (fieldX op))
  | 0xF, _, 0x2, 0x9 => .ok (.ldF (fieldX op))
  | 0xF, _, 0x3, 0x3 => .ok (.ldB (fieldX op))
  | 0xF, _, 0x5, 0x5 => .ok (.stRegs (fieldX op))
  | 0xF, _, 0x6, 0x5 => .ok (.ldRegs (fieldX op))
  | _, _, _, _ => .error (.unrecognized op)

/-- A word from its two bytes, the first (lower address) the high one (R31). -/
def wordOfBytes (hi lo : Byte) : Word := hi ++ lo

/-- The two bytes of a word as memory holds them, high byte first (R31); also what the directive `DW` of R56 places. -/
def bytesOfWord (op : Word) : List Byte := [op.extractLsb' 8 8, op.extractLsb' 0 8]

/-- The decoder on bytes: the first instruction and the rest (R45). -/
def decodeBytes : List Byte → Except Reject (Instr × List Byte)
  | hi :: lo :: rest =>
    match decode (wordOfBytes hi lo) with
    | .ok i => .ok (i, rest)
    | .error r => .error r
  | [_] => .error .truncated
  | [] => .error .truncated

/-- The word formats of R46, fields in order from bit 15. -/
def wordFA (op : BitVec 4) (nnn : Addr12) : Word := op ++ nnn
def wordFXK (op : BitVec 4) (x : RegIdx) (nn : Byte) : Word := op ++ (BitVec.ofFin x : BitVec 4) ++ nn
def wordFXYN (op : BitVec 4) (x y n : Fin 16) : Word :=
  op ++ (BitVec.ofFin x : BitVec 4) ++ (BitVec.ofFin y : BitVec 4) ++ (BitVec.ofFin n : BitVec 4)

/-- The encoder, from the encodings of R49. -/
def encode : Instr → Word
  | .cls => 0x00E0
  | .ret => 0x00EE
  | .jp nnn => wordFA 0x1 nnn
  | .call nnn => wordFA 0x2 nnn
  | .seImm x nn => wordFXK 0x3 x nn
  | .sneImm x nn => wordFXK 0x4 x nn
  | .seReg x y => wordFXYN 0x5 x y 0x0
  | .ldImm x nn => wordFXK 0x6 x nn
  | .addImm x nn => wordFXK 0x7 x nn
  | .ldReg x y => wordFXYN 0x8 x y 0x0
  | .orReg x y => wordFXYN 0x8 x y 0x1
  | .andReg x y => wordFXYN 0x8 x y 0x2
  | .xorReg x y => wordFXYN 0x8 x y 0x3
  | .addReg x y => wordFXYN 0x8 x y 0x4
  | .sub x y => wordFXYN 0x8 x y 0x5
  | .shr x y => wordFXYN 0x8 x y 0x6
  | .subn x y => wordFXYN 0x8 x y 0x7
  | .shl x y => wordFXYN 0x8 x y 0xE
  | .sneReg x y => wordFXYN 0x9 x y 0x0
  | .ldI nnn => wordFA 0xA nnn
  | .jpV0 nnn => wordFA 0xB nnn
  | .rnd x nn => wordFXK 0xC x nn
  | .drw x y n => wordFXYN 0xD x y n
  | .skp x => wordFXK 0xE x 0x9E
  | .sknp x => wordFXK 0xE x 0xA1
  | .ldVxDt x => wordFXK 0xF x 0x07
  | .ldVxK x => wordFXK 0xF x 0x0A
  | .ldDtVx x => wordFXK 0xF x 0x15
  | .ldStVx x => wordFXK 0xF x 0x18
  | .addI x => wordFXK 0xF x 0x1E
  | .ldF x => wordFXK 0xF x 0x29
  | .ldB x => wordFXK 0xF x 0x33
  | .stRegs x => wordFXK 0xF x 0x55
  | .ldRegs x => wordFXK 0xF x 0x65

/-- The bytes of an instruction as memory holds them (R31, R45). -/
def encodeBytes (i : Instr) : List Byte := bytesOfWord (encode i)

/-- The `mask` column of R49. -/
def Instr.rowMask : Instr → Word
  | .cls | .ret => 0xFFFF
  | .jp _ | .call _ | .ldI _ | .jpV0 _ => 0xF000
  | .seImm _ _ | .sneImm _ _ | .ldImm _ _ | .addImm _ _ | .rnd _ _ => 0xF000
  | .seReg _ _ | .sneReg _ _ | .ldReg _ _ | .orReg _ _ | .andReg _ _ | .xorReg _ _ => 0xF00F
  | .addReg _ _ | .sub _ _ | .shr _ _ | .subn _ _ | .shl _ _ => 0xF00F
  | .drw _ _ _ => 0xF000
  | .skp _ | .sknp _ | .ldVxDt _ | .ldVxK _ | .ldDtVx _ | .ldStVx _ => 0xF0FF
  | .addI _ | .ldF _ | .ldB _ | .stRegs _ | .ldRegs _ => 0xF0FF

/-- The `match` column of R49. -/
def Instr.rowMatch : Instr → Word
  | .cls => 0x00E0
  | .ret => 0x00EE
  | .jp _ => 0x1000
  | .call _ => 0x2000
  | .seImm _ _ => 0x3000
  | .sneImm _ _ => 0x4000
  | .seReg _ _ => 0x5000
  | .ldImm _ _ => 0x6000
  | .addImm _ _ => 0x7000
  | .ldReg _ _ => 0x8000
  | .orReg _ _ => 0x8001
  | .andReg _ _ => 0x8002
  | .xorReg _ _ => 0x8003
  | .addReg _ _ => 0x8004
  | .sub _ _ => 0x8005
  | .shr _ _ => 0x8006
  | .subn _ _ => 0x8007
  | .shl _ _ => 0x800E
  | .sneReg _ _ => 0x9000
  | .ldI _ => 0xA000
  | .jpV0 _ => 0xB000
  | .rnd _ _ => 0xC000
  | .drw _ _ _ => 0xD000
  | .skp _ => 0xE09E
  | .sknp _ => 0xE0A1
  | .ldVxDt _ => 0xF007
  | .ldVxK _ => 0xF00A
  | .ldDtVx _ => 0xF015
  | .ldStVx _ => 0xF018
  | .addI _ => 0xF01E
  | .ldF _ => 0xF029
  | .ldB _ => 0xF033
  | .stRegs _ => 0xF055
  | .ldRegs _ => 0xF065

/-- The instruction the decoder reads from an instruction whose `nbits` bits are `w`, numbered as the opcode table
numbers them; every bit above `nbits` is 0. The word is laid out as memory holds it (R31) and given to `decodeBytes`. -/
def decodeTableWord (nbits w : Nat) : Option Instr :=
  match decodeBytes (bytesOfWord (BitVec.ofNat 16 (w % 2 ^ nbits))) with
  | .ok (i, _) => some i
  | .error _ => none

end Sys2Proof
end

