-- ==== Sys2Proof/Machine/State.lean ====
section
/-! DEFINITION. The machine's state as plain data (spec/10_state.md R10 to R23), its reset value, and the reasons a step can stop. -/

namespace Sys2Proof.Machine

/-- `STATUS` (R20). -/
inductive Status where
  | running
  | faulted
  deriving DecidableEq, Repr

/-- `FCAUSE` (R21, R124): the six causes, and `none`, its reset value. -/
inductive FaultCause where
  | none
  | fetchOob
  | dataReadOob
  | dataWriteOob
  | stackOverflow
  | stackUnderflow
  | keyIndexOob
  deriving DecidableEq, Repr

/-- `MEM` (R16, R30): the cells that differ from their reset contents, in the canonical form `Memory.wf`
(Machine/Ops.lean; log 8). -/
abbrev Memory := List Host.Cell

/-- `FB` (R17): `FB[y][x]`, 32 rows of 64 cells, `true` is lit. -/
abbrev Screen := Vector (Vector Bool 64) 32

/-- The state. The fields down to `finfo` are all the state the spec gives the machine (R22); `font`, `rnd` and
`draws` are the MODEL's own: the two parameters R22 names, which `step` has no argument for (log 1, log 2). -/
structure State where
  /-- `V[0]` to `V[15]` (R10, R11). -/
  v : Vector Byte 16
  /-- `I` (R12). -/
  idx : Word
  /-- `PC` (R13). -/
  pc : Word
  /-- `SP`, 0 to 16 (R14). -/
  sp : Fin 17
  /-- `STACK[0]` to `STACK[15]` (R15). -/
  stack : Vector Word 16
  /-- `MEM` (R16). -/
  mem : Memory
  /-- `FB` (R17). -/
  fb : Screen
  /-- `DT` (R18). -/
  dt : Byte
  /-- `ST` (R18). -/
  st : Byte
  /-- `KEY[0]` to `KEY[15]`, `true` is pressed (R19). -/
  key : Vector Bool 16
  /-- `STATUS` (R20). -/
  status : Status
  /-- `FCAUSE` (R21). -/
  fcause : FaultCause
  /-- `FPC` (R21). -/
  fpc : Word
  /-- `FINFO` (R21). -/
  finfo : Info
  /-- The parameter `FONT` (R6, R35): what RESET puts at addresses 0 to 79. No operation changes it (log 1). -/
  font : Vector Byte 80
  /-- The byte `rnd` that the coming STEP is given (R7, R24); any value (log 2). -/
  rnd : Byte
  /-- How many bytes of the free stream `Config.rndByte` have been taken (log 2). -/
  draws : Nat
  deriving DecidableEq, Repr

/-- Reasons for which a step leaves the state space: there is none. Every fault of this machine is a state the spec
describes (R127, R128), so taking it is a next state (log 4). Safe: nothing is claimed of a step that stops. -/
inductive Fault where
  deriving DecidableEq, Repr

/-- Reasons for which the model gives a request no step. -/
inductive Refusal where
  /-- An instruction the model gives no meaning yet. No arm of `exec` raises it. Safe. -/
  | notModelled (mnemonic : String)
  /-- Two or more requests on one clock edge (R26, D16), raised by `edge` (Machine/Signals.lean): "Two operations
  requested at the same instant have no defined meaning" (log 11). Safe. -/
  | overlappingRequests
  deriving DecidableEq, Repr

/-- The state right after RESET with the given `FONT` (R23, R151), the model's own fields given. -/
def State.resetWith (font : Vector Byte 80) (rnd : Byte) (draws : Nat) : State where
  v := Vector.replicate 16 0
  idx := 0
  pc := BitVec.ofNat 16 Config.progBase
  sp := 0
  stack := Vector.replicate 16 0
  mem := []
  fb := Vector.replicate 32 (Vector.replicate 64 false)
  dt := 0
  st := 0
  key := Vector.replicate 16 false
  status := .running
  fcause := .none
  fpc := 0
  finfo := 0
  font := font
  rnd := rnd
  draws := draws

/-- The machine right after RESET with the spec's default `FONT` (R23, R35, R151; log 1, log 2). -/
def State.reset : State := State.resetWith Config.defaultFont (Config.rndByte 0) 1

end Sys2Proof.Machine
end

