-- ==== Sys2Proof/Machine/Ops.lean ====
section
/-! DEFINITION. The named operations over memory, registers, stack, screen and keys (spec/10_state.md, spec/20_memory.md, spec/41_flow.md R79, spec/44_display.md), the fetch, and taking a fault (spec/60_exceptions.md R127, R128). -/

namespace Sys2Proof.Machine

/-! ### Memory (20_memory.md) -/

/-- What an address that the memory list does not name reads as: its reset contents, `FONT` in 0 to 79 and 0 above
(R16, R23, R34; log 8). -/
def Memory.unlisted (font : Vector Byte 80) (a : Nat) : Byte := if h : a < 80 then font[a] else 0

/-- The listed byte at an address. -/
def Memory.lookup : Memory → Nat → Option Byte
  | [], _ => none
  | (k, b) :: rest, a => if k = a then some b else Memory.lookup rest a

/-- The byte at an address. -/
def Memory.read (font : Vector Byte 80) (m : Memory) (a : Nat) : Byte :=
  (Memory.lookup m a).getD (Memory.unlisted font a)

/-- The list without the cell at `a`. -/
def Memory.erase (m : Memory) (a : Nat) : Memory := m.filter fun c => c.1 != a

/-- The list with a cell put before the first one at a higher address. -/
def Memory.insert (a : Nat) (b : Byte) : Memory → Memory
  | [] => [(a, b)]
  | (k, c) :: rest => if a < k then (a, b) :: (k, c) :: rest else (k, c) :: Memory.insert a b rest

/-- The memory with byte `b` at address `a`; a byte equal to what the address reads as unlisted is not listed. -/
def Memory.write (font : Vector Byte 80) (m : Memory) (a : Nat) (b : Byte) : Memory :=
  if b = Memory.unlisted font a then Memory.erase m a else Memory.insert a b (Memory.erase m a)

/-- The memory with the bytes put at `a`, `a + 1`, … in ascending order (R32). -/
def Memory.writeBytes (font : Vector Byte 80) (m : Memory) (a : Nat) : List Byte → Memory
  | [] => m
  | b :: bs => Memory.writeBytes font (Memory.write font m a b) (a + 1) bs

/-- The canonical form: addresses strictly rising, each inside the address space (R30), and no cell equal to what its
address reads as unlisted. -/
abbrev Memory.wf (font : Vector Byte 80) (m : Memory) : Prop :=
  m.Pairwise (fun c d => c.1 < d.1) ∧ ∀ c ∈ m, c.1 < 4096 ∧ c.2 ≠ Memory.unlisted font c.1

/-- `MEM[a]`. -/
def State.readByte (s : State) (a : Nat) : Byte := Memory.read s.font s.mem a

/-- `MEM[a] <- bs[0]`, `MEM[a + 1] <- bs[1]`, …; the caller has checked the range (R39). -/
def State.writeBytes (s : State) (a : Nat) (bs : List Byte) : State :=
  { s with mem := Memory.writeBytes s.font s.mem a bs }

/-! ### General registers (10_state.md R10) -/

/-- `V[x]`. -/
def State.reg (s : State) (x : RegIdx) : Byte := s.v[x.val]

/-- `V[x] <- b`. -/
def State.setReg (s : State) (x : RegIdx) (b : Byte) : State := { s with v := s.v.set x.val b }

/-! ### The program counter (10_state.md R13, 40_cycle_and_dispatch.md R62) -/

/-- `PC <- PC + 2`, the increment of the fetch and of a taken skip. -/
def State.advance (s : State) : State := { s with pc := s.pc + 2 }

/-- `PC <- PC - 2`: the rewind of `FX0A` (R115). -/
def State.rewind (s : State) : State := { s with pc := s.pc - 2 }

/-- `PC <- target`. -/
def State.jump (s : State) (target : Word) : State := { s with pc := target }

/-- A conditional skip: `PC <- PC + 2` if the condition holds (41_flow.md section 3). -/
def State.skipIf (s : State) (c : Bool) : State := if c then s.advance else s

/-- The instruction word at `PC`, high byte first (R31, R37): none when a byte of it lies past 4095. -/
def State.fetchWord (s : State) : Option Word :=
  if 4094 < s.pc.toNat then none
  else some (wordOfBytes (s.readByte s.pc.toNat) (s.readByte (s.pc.toNat + 1)))

/-! ### The call stack (41_flow.md R79) -/

/-- Push: none when the stack is full. -/
def State.push (s : State) (w : Word) : Option State :=
  if h : s.sp.val < 16 then some { s with stack := s.stack.set s.sp.val w, sp := ⟨s.sp.val + 1, by omega⟩ } else none

/-- Pop: the word and the state after, the popped entry left in place (R15); none when the stack is empty. -/
def State.pop (s : State) : Option (Word × State) :=
  if h : 1 ≤ s.sp.val then some (s.stack[s.sp.val - 1], { s with sp := ⟨s.sp.val - 1, by omega⟩ }) else none

/-! ### The framebuffer (44_display.md R105) -/

/-- The cell a pixel aimed at row `y`, column `x` lands on: coordinates wrap. -/
def Screen.cell (fb : Screen) (y x : Nat) : Bool :=
  (fb[y % 32]'(Nat.mod_lt _ (by decide)))[x % 64]'(Nat.mod_lt _ (by decide))

/-- `FB[y mod 32][x mod 64] <- FB[y mod 32][x mod 64] ^ 1`. -/
def Screen.toggle (fb : Screen) (y x : Nat) : Screen :=
  fb.set (y % 32)
    ((fb[y % 32]'(Nat.mod_lt _ (by decide))).set (x % 64) (!fb.cell y x) (Nat.mod_lt _ (by decide)))
    (Nat.mod_lt _ (by decide))

/-- Every cell off (R107). -/
def Screen.blank : Screen := Vector.replicate 32 (Vector.replicate 64 false)

/-- One pixel of a sprite: a 1 bit toggles its cell and records a collision if the cell was lit (R108, R110). -/
def drawPixel (y x : Nat) (bit : Bool) (p : Screen × Bool) : Screen × Bool :=
  if bit then (p.1.toggle y x, p.2 || p.1.cell y x) else p

/-- One row of a sprite: the pixel of column `c` is bit `7 - c` (R109, D10; log 9). -/
def drawRow (y x0 : Nat) (b : Byte) (p : Screen × Bool) : Screen × Bool :=
  (List.range 8).foldl (fun q c => drawPixel y (x0 + c) (b.getLsbD (7 - c)) q) p

/-- The rows of a sprite, the first at row `y` (R110). -/
def drawRows (x0 : Nat) : Nat → List Byte → Screen × Bool → Screen × Bool
  | _, [], p => p
  | y, b :: bs, p => drawRows x0 (y + 1) bs (drawRow y x0 b p)

/-! ### The keys (45_keypad_timers.md R119, R115) -/

/-- `KEY[k]` for a full byte `k`: none when `k > 15`, which names no key. -/
def State.keyAt (s : State) (k : Byte) : Option Bool := if h : k.toNat < 16 then some s.key[k.toNat] else none

/-- The least pressed key (R115). -/
def State.firstKey (s : State) : Option (Fin 16) := (List.finRange 16).find? fun k => s.key[k.val]

/-! ### The random byte (42_alu.md R93) -/

/-- Puts the next byte of the free stream in the place of the byte just used (log 2). -/
def State.renewRnd (s : State) : State := { s with rnd := Config.rndByte s.draws, draws := s.draws + 1 }

/-! ### Faults (60_exceptions.md) -/

/-- The cause code of R124, the 3 bits of `FCAUSE`. -/
def FaultCause.code : FaultCause → BitVec 3
  | .none => 0
  | .fetchOob => 1
  | .dataReadOob => 2
  | .dataWriteOob => 3
  | .stackOverflow => 4
  | .stackUnderflow => 5
  | .keyIndexOob => 6

/-- `raise Fault(cause, info)` in the cycle of the instruction at `pc0` (R127): PC is `pc0` again, and exactly STATUS,
FCAUSE, FPC and FINFO are written. There is no handler, and no return but RESET (R129). -/
def State.raiseAt (s : State) (pc0 : Word) (cause : FaultCause) (info : Info) : State :=
  { s with pc := pc0, status := .faulted, fcause := cause, fpc := pc0, finfo := info }

/-- `PC0`, the address of the instruction that executes: PC has already been incremented (R9, R62; log 5). -/
def State.pc0 (s : State) : Word := s.pc - 2

/-- The fault of a fetch outside memory, raised before PC is incremented (R61). -/
def State.fetchFault (s : State) : State := s.raiseAt s.pc .fetchOob (s.pc.setWidth 17)

/-- A STEP while FAULTED changes no state whatsoever (R128). -/
def State.stayFaulted (s : State) : State := s

/-- A word that is no instruction: the only change is the PC increment of the fetch (R65). -/
def State.skipUnrecognized (s : State) : State := s.advance

/-- The end of an instruction with a bounds check: its result where the check passed, else the fault, with nothing of
the instruction committed (R127: all checks precede all writes). -/
def State.commit (s : State) (cause : FaultCause) (info : Info) (r : Option State) :
    Host.Outcome State Fault Refusal :=
  match r with
  | some t => .next t
  | none => .next (s.raiseAt s.pc0 cause info)

end Sys2Proof.Machine
end

