-- ==== Sys2Proof/Machine/Flags.lean ====
section
/-! DEFINITION. The flag computations (spec/42_alu.md R80, R81, R94): each answers the 8-bit result and the flag, from the operands before the operation. -/

namespace Sys2Proof.Machine

/-- A flag as the byte VF receives: exactly 0 or 1 (R11). -/
def flagByte (f : Bool) : Byte := if f then 1 else 0

/-- Addition and its carry (R80, R88). -/
def addFlag (a b : Byte) : Byte × Bool := (a + b, decide (255 < a.toNat + b.toNat))

/-- Subtraction `a - b` and its NO-borrow flag (R80, R89). -/
def subFlag (a b : Byte) : Byte × Bool := (a - b, decide (b.toNat ≤ a.toNat))

/-- Right shift by one and the bit shifted out, old bit 0 (R90). -/
def shrFlag (a : Byte) : Byte × Bool := (a >>> 1, a.getLsbD 0)

/-- Left shift by one and the bit shifted out, old bit 7 (R92). -/
def shlFlag (a : Byte) : Byte × Bool := (a <<< 1, a.getLsbD 7)

/-- `V[x] <- r`, then `V[15] <- f`: the flag is written last (R81, D11; log 10). -/
def State.setWithFlag (s : State) (x : RegIdx) (p : Byte × Bool) : State :=
  (s.setReg x p.1).setReg 15 (flagByte p.2)

end Sys2Proof.Machine
end

