-- ==== Sys2Proof/Machine/Alu.lean ====
section
/-! DEFINITION. Register and ALU instructions (spec/42_alu.md). None touches PC, and none can fault. -/

namespace Sys2Proof.Machine

/-- 6XNN (R82). -/
def execLdImm (x : RegIdx) (nn : Byte) (s : State) : Host.Outcome State Fault Refusal := .next (s.setReg x nn)

/-- 7XNN: no flag (R83). -/
def execAddImm (x : RegIdx) (nn : Byte) (s : State) : Host.Outcome State Fault Refusal := .next (s.setReg x (s.reg x + nn))

/-- 8XY0 (R84). -/
def execLdReg (x y : RegIdx) (s : State) : Host.Outcome State Fault Refusal := .next (s.setReg x (s.reg y))

/-- 8XY1: no flag (R85). -/
def execOrReg (x y : RegIdx) (s : State) : Host.Outcome State Fault Refusal := .next (s.setReg x (s.reg x ||| s.reg y))

/-- 8XY2: no flag (R86). -/
def execAndReg (x y : RegIdx) (s : State) : Host.Outcome State Fault Refusal := .next (s.setReg x (s.reg x &&& s.reg y))

/-- 8XY3: no flag (R87). -/
def execXorReg (x y : RegIdx) (s : State) : Host.Outcome State Fault Refusal := .next (s.setReg x (s.reg x ^^^ s.reg y))

/-- 8XY4 (R88). -/
def execAddReg (x y : RegIdx) (s : State) : Host.Outcome State Fault Refusal :=
  .next (s.setWithFlag x (addFlag (s.reg x) (s.reg y)))

/-- 8XY5: `VX - VY` (R89). -/
def execSub (x y : RegIdx) (s : State) : Host.Outcome State Fault Refusal :=
  .next (s.setWithFlag x (subFlag (s.reg x) (s.reg y)))

/-- 8XY6: VX only, Y ignored (R90). -/
def execShr (x : RegIdx) (s : State) : Host.Outcome State Fault Refusal := .next (s.setWithFlag x (shrFlag (s.reg x)))

/-- 8XY7: `VY - VX` (R91). -/
def execSubn (x y : RegIdx) (s : State) : Host.Outcome State Fault Refusal :=
  .next (s.setWithFlag x (subFlag (s.reg y) (s.reg x)))

/-- 8XYE: VX only, Y ignored (R92). -/
def execShl (x : RegIdx) (s : State) : Host.Outcome State Fault Refusal := .next (s.setWithFlag x (shlFlag (s.reg x)))

/-- CXNN: the byte `rnd` of this STEP AND the immediate (R93); the next STEP's byte is a fresh free value (log 2). -/
def execRnd (x : RegIdx) (nn : Byte) (s : State) : Host.Outcome State Fault Refusal :=
  .next (s.setReg x (s.rnd &&& nn)).renewRnd

end Sys2Proof.Machine
end

