-- ==== Sys2Proof/Machine/Operands.lean ====
section
/-! DEFINITION. The operand forms: immediates (spec/30_encoding.md R47), the addressing mode `I + k` (spec/43_index_memory.md R95, spec/20_memory.md R39) and the register ranges of FX55 and FX65. -/

namespace Sys2Proof.Machine

/-- `zext_16(NNN)` (R47). -/
def zextAddr (nnn : Addr12) : Word := nnn.setWidth 16

/-- `zext_16(V[x])`. -/
def zextReg (b : Byte) : Word := b.setWidth 16

/-- `EA(k) = I + k`, an unbounded sum (R39, R95). -/
def State.ea (s : State) (k : Nat) : Nat := s.idx.toNat + k

/-- `max(I, 4096)`, the first out-of-bounds address of a range that starts at `I` and does not fit (R39, D5). -/
def State.firstBad (s : State) : Info := BitVec.ofNat 17 (max s.idx.toNat 4096)

/-- The `n` bytes at `I`, `I + 1`, …, `I + n - 1` all lie in memory; no check is made of an empty range (R39, R110). -/
def State.rangeOk (s : State) (n : Nat) : Bool := n = 0 || s.ea (n - 1) ≤ 4095

/-- Reads `n` bytes from `I` on; none when the range leaves memory (R36, R39). -/
def State.loadBytes (s : State) (n : Nat) : Option (List Byte) :=
  if s.rangeOk n then some ((List.range n).map fun k => s.readByte (s.ea k)) else none

/-- Stores bytes from `I` on; none when the range leaves memory, and then none of them is written (R38, R39). -/
def State.storeBytes (s : State) (bs : List Byte) : Option State :=
  if s.rangeOk bs.length then some (s.writeBytes (s.ea 0) bs) else none

/-- `V[0]`, …, `V[x]`, the inclusive range of FX55 (R100). -/
def State.regsUpTo (s : State) (x : RegIdx) : List Byte := s.v.toList.take (x.val + 1)

/-- `V[0] <- bs[0]`, `V[1] <- bs[1]`, …, as far as the list goes (R101). -/
def State.setRegs (s : State) (bs : List Byte) : State :=
  { s with v := Vector.ofFn fun k => (bs[k.val]?).getD (s.reg k) }

/-- The hundreds, tens and ones digits of a byte (R99). -/
def bcdDigits (a : Byte) : List Byte := [a / 100, (a / 10) % 10, a % 10]

end Sys2Proof.Machine
end

