-- ==== Sys2Proof/Machine/Display.lean ====
section
/-! DEFINITION. Display instructions (spec/44_display.md). -/

namespace Sys2Proof.Machine

/-- 00E0 (R107). -/
def execCls (s : State) : Host.Outcome State Fault Refusal := .next { s with fb := Screen.blank }

/-- The screen and the collision flag after a sprite's rows are drawn at column `vx`, row `vy` (R110). -/
def State.drawn (s : State) (vx vy : Byte) (rows : List Byte) : Screen × Bool :=
  drawRows vx.toNat vy.toNat rows (s.fb, false)

/-- The state after the draw: VF is written last, with the collision flag (R110). -/
def State.drawSprite (s : State) (vx vy : Byte) (rows : List Byte) : State :=
  let p := s.drawn vx vy rows
  { s with fb := p.1 }.setReg 15 (flagByte p.2)

/-- DXYN: N rows from I; N = 0 reads nothing, draws nothing and writes VF = 0 (R110, D24). -/
def execDrw (x y : RegIdx) (n : RowCount) (s : State) : Host.Outcome State Fault Refusal :=
  s.commit .dataReadOob s.firstBad ((s.loadBytes n.val).map (s.drawSprite (s.reg x) (s.reg y)))

end Sys2Proof.Machine
end

