-- ==== Sys2Proof/Machine/Flow.lean ====
section
/-! DEFINITION. Control transfer (spec/41_flow.md). PC already holds PC0 + 2 (spec/40_cycle_and_dispatch.md R62). -/

namespace Sys2Proof.Machine

/-- 1NNN (R71). -/
def execJp (nnn : Addr12) (s : State) : Host.Outcome State Fault Refusal := .next (s.jump (zextAddr nnn))

/-- 2NNN: pushes PC0 + 2 (R72, R79). -/
def execCall (nnn : Addr12) (s : State) : Host.Outcome State Fault Refusal :=
  s.commit .stackOverflow 16 ((s.push s.pc).map fun t => t.jump (zextAddr nnn))

/-- 00EE (R73, R79). -/
def execRet (s : State) : Host.Outcome State Fault Refusal :=
  s.commit .stackUnderflow 0 (s.pop.map fun p => p.2.jump p.1)

/-- BNNN: the offset register is always V0; 16-bit sum (R74). -/
def execJpV0 (nnn : Addr12) (s : State) : Host.Outcome State Fault Refusal :=
  .next (s.jump (zextReg (s.reg 0) + zextAddr nnn))

/-- 3XNN (R75). -/
def execSeImm (x : RegIdx) (nn : Byte) (s : State) : Host.Outcome State Fault Refusal := .next (s.skipIf (s.reg x == nn))

/-- 4XNN (R76). -/
def execSneImm (x : RegIdx) (nn : Byte) (s : State) : Host.Outcome State Fault Refusal := .next (s.skipIf (s.reg x != nn))

/-- 5XY0 (R77). -/
def execSeReg (x y : RegIdx) (s : State) : Host.Outcome State Fault Refusal := .next (s.skipIf (s.reg x == s.reg y))

/-- 9XY0 (R78). -/
def execSneReg (x y : RegIdx) (s : State) : Host.Outcome State Fault Refusal := .next (s.skipIf (s.reg x != s.reg y))

end Sys2Proof.Machine
end

