-- ==== Sys2Proof/Machine/IndexMemory.lean ====
section
/-! DEFINITION. Index register and memory instructions (spec/43_index_memory.md). None touches PC or writes VF as a flag. -/

namespace Sys2Proof.Machine

/-- ANNN (R96). -/
def execLdI (nnn : Addr12) (s : State) : Host.Outcome State Fault Refusal := .next { s with idx := zextAddr nnn }

/-- FX1E: modulo 65536, no flag (R97). -/
def execAddI (x : RegIdx) (s : State) : Host.Outcome State Fault Refusal :=
  .next { s with idx := s.idx + zextReg (s.reg x) }

/-- FX29: the whole byte VX times 5 (R98). -/
def execLdF (x : RegIdx) (s : State) : Host.Outcome State Fault Refusal :=
  .next { s with idx := zextReg (s.reg x) * 5 }

/-- FX33: three digits at I, I + 1, I + 2, all or none (R99). -/
def execLdB (x : RegIdx) (s : State) : Host.Outcome State Fault Refusal :=
  s.commit .dataWriteOob s.firstBad (s.storeBytes (bcdDigits (s.reg x)))

/-- FX55: V0 to VX at I on, all or none; I unchanged (R100). -/
def execStRegs (x : RegIdx) (s : State) : Host.Outcome State Fault Refusal :=
  s.commit .dataWriteOob s.firstBad (s.storeBytes (s.regsUpTo x))

/-- FX65: V0 to VX from I on, all or none; I unchanged (R101). -/
def execLdRegs (x : RegIdx) (s : State) : Host.Outcome State Fault Refusal :=
  s.commit .dataReadOob s.firstBad ((s.loadBytes (x.val + 1)).map s.setRegs)

end Sys2Proof.Machine
end

