-- ==== Sys2Proof/Machine/KeypadTimers.lean ====
section
/-! DEFINITION. Keypad and timer instructions (spec/45_keypad_timers.md). -/

namespace Sys2Proof.Machine

/-- EX9E: skip if KEY[VX] is pressed; VX above 15 faults, never masked (R113, R119). -/
def execSkp (x : RegIdx) (s : State) : Host.Outcome State Fault Refusal :=
  s.commit .keyIndexOob ((s.reg x).setWidth 17) ((s.keyAt (s.reg x)).map fun pressed => s.skipIf pressed)

/-- EXA1: skip if KEY[VX] is released (R114, R119). -/
def execSknp (x : RegIdx) (s : State) : Host.Outcome State Fault Refusal :=
  s.commit .keyIndexOob ((s.reg x).setWidth 17) ((s.keyAt (s.reg x)).map fun pressed => s.skipIf (!pressed))

/-- FX0A: the least pressed key, or the same instruction again next cycle (R115). -/
def execLdVxK (x : RegIdx) (s : State) : Host.Outcome State Fault Refusal :=
  match s.firstKey with
  | some k => .next (s.setReg x (BitVec.ofNat 8 k.val))
  | none => .next s.rewind

/-- FX07 (R116). -/
def execLdVxDt (x : RegIdx) (s : State) : Host.Outcome State Fault Refusal := .next (s.setReg x s.dt)

/-- FX15 (R117). -/
def execLdDtVx (x : RegIdx) (s : State) : Host.Outcome State Fault Refusal := .next { s with dt := s.reg x }

/-- FX18 (R118). -/
def execLdStVx (x : RegIdx) (s : State) : Host.Outcome State Fault Refusal := .next { s with st := s.reg x }

end Sys2Proof.Machine
end

