-- ==== Sys2Proof/Machine/Step.lean ====
section
/-! DEFINITION. One STEP (spec/40_cycle_and_dispatch.md R60). -/

namespace Sys2Proof.Machine

/-- One cycle: nothing while FAULTED; else fetch, increment PC, decode, execute (R60 to R65, R128). The byte `rnd` of
this STEP is the state's field `rnd` (log 2). -/
def step (s : State) : Host.Outcome State Fault Refusal :=
  match s.status with
  | .faulted => .next s.stayFaulted
  | .running =>
    match s.fetchWord with
    | none => .next s.fetchFault
    | some op =>
      match decode op with
      | .ok i => exec i s.advance
      | .error _ => .next s.skipUnrecognized

/-- The state with the instruction whose `nbits` bits are `w` stored at PC, its first byte the high one (R31), all
bits above `nbits` zero. It stands for the host's LOAD (log 7); a PC that no fetch accepts leaves nothing to store. -/
def State.withFetchWord (s : State) (nbits w : Nat) : State :=
  if 4094 < s.pc.toNat then s
  else s.writeBytes s.pc.toNat (bytesOfWord (BitVec.ofNat 16 (w % 2 ^ nbits)))

end Sys2Proof.Machine
end

