-- ==== Sys2Proof/Machine/HostOps.lean ====
section
/-! DEFINITION. The six operations of the host, their results, runs under a schedule of them, and the core's outputs (spec/10_state.md R24 to R26; spec/60_exceptions.md R132 to R143; spec/70_reset_and_hazards.md R151, R155, R160; spec/40_cycle_and_dispatch.md R64, R66). -/

namespace Sys2Proof.Machine

/-- The operations the core accepts (R24). Each is atomic. -/
inductive HostOp where
  | reset
  | load (image : List Byte)
  | step (rnd : Byte)
  | tick
  | key (k : Nat) (pressed : Bool)
  | readFb
  deriving DecidableEq, Repr

/-- Host errors: caller-contract violations, which change no state (R132). -/
inductive HostError where
  | loadTooLarge
  | keyIndexInvalid
  deriving DecidableEq, Repr

/-- The result an operation answers (R24, R64). -/
inductive OpResult where
  /-- RESET and TICK answer nothing. -/
  | nothing
  | ok
  | error (e : HostError)
  | done
  /-- DONE with the event `UNDEC(op, addr)` (R65). The event is no state (D14; log 6). -/
  | doneUndec (op addr : Word)
  | fault (cause : FaultCause)
  | cells (fb : List Bool)
  deriving DecidableEq, Repr

/-! ### Outputs (R25): functions of the state -/

/-- `sound_active = (ST > 0)` (R142). -/
def State.soundActive (s : State) : Bool := decide (0 < s.st.toNat)

/-- The 2048 cells in row-major order (R143). -/
def State.cells (s : State) : List Bool := s.fb.toList.flatMap Vector.toList

/-- The event of a STEP begun in this state: the unrecognized word and its address (R65). -/
def State.undecEvent (s : State) : Option (Word × Word) :=
  match s.status, s.fetchWord with
  | .running, some op =>
    match decode op with
    | .ok _ => none
    | .error _ => some (op, s.pc)
  | _, _ => none

/-- The result of a STEP that led from `s` to `t` (R64): FAULT when the machine is FAULTED after it, with the cause
recorded, whether this cycle raised it or the machine was FAULTED already (R128). -/
def stepResult (s t : State) : OpResult :=
  match t.status with
  | .faulted => .fault t.fcause
  | .running =>
    match s.undecEvent with
    | some (op, addr) => .doneUndec op addr
    | none => .done

/-! ### The operations -/

/-- RESET (R151): every piece of state at its reset value. The model's own fields stay: `FONT` is the same parameter,
and the free input goes on (log 3). -/
def State.opReset (s : State) : State := State.resetWith s.font s.rnd s.draws

/-- TICK (R137). -/
def tickDown (t : Byte) : Byte := if 0 < t.toNat then t - 1 else t

/-- TICK: both timers, independently, in any status (R137). -/
def State.opTick (s : State) : State := { s with dt := tickDown s.dt, st := tickDown s.st }

/-- `KEY[k] <- pressed` for a valid index (R139). -/
def State.opKey (s : State) (k : Fin 16) (pressed : Bool) : State := { s with key := s.key.set k.val pressed }

/-- LOAD of an image that fits: byte `j` to `MEM[0x200 + j]`, nothing else (R141). -/
def State.opLoad (s : State) (image : List Byte) : State := s.writeBytes Config.progBase image

/-- The byte the coming STEP is given (R7, R24). -/
def State.withRnd (s : State) (r : Byte) : State := { s with rnd := r }

/-- One operation: its result and the state after it (R24). A refused operation changes no state (R132). -/
def perform (op : HostOp) (s : State) : Host.Outcome (OpResult × State) Fault Refusal :=
  match op with
  | .reset => .next (.nothing, s.opReset)
  | .load image => .next (if imageFits image then (.ok, s.opLoad image) else (.error .loadTooLarge, s))
  | .step r =>
    match step (s.withRnd r) with
    | .next t => .next (stepResult s t, t)
    | .fault f => .fault f
    | .refused r => .refused r
  | .tick => .next (.nothing, s.opTick)
  | .key k pressed => .next (if h : k < 16 then (.ok, s.opKey ⟨k, h⟩ pressed) else (.error .keyIndexInvalid, s))
  | .readFb => .next (.cells s.cells, s)

/-! ### Several operations -/

/-- A result put before those of the operations that follow. -/
def consResult (r : OpResult) : Host.Outcome (List OpResult × State) Fault Refusal →
    Host.Outcome (List OpResult × State) Fault Refusal
  | .next (rs, t) => .next (r :: rs, t)
  | .fault f => .fault f
  | .refused e => .refused e

/-- A run under a schedule of the host: any operations, in any order and any number, one after the other, with the result
of each (R26, R155, R160). Claims about runs quantify over the list. -/
def runSchedule : List HostOp → State → Host.Outcome (List OpResult × State) Fault Refusal
  | [], s => .next ([], s)
  | op :: ops, s =>
    match perform op s with
    | .next (r, t) => consResult r (runSchedule ops t)
    | .fault f => .fault f
    | .refused e => .refused e

/-- The result FAULT (R64). -/
def OpResult.isFault : OpResult → Bool
  | .fault _ => true
  | .nothing | .ok | .error _ | .done | .doneUndec _ _ | .cells _ => false

/-- "Run N cycles" (R66): one STEP operation for each byte, up to and including the first that answers FAULT, with the
result of each STEP made. -/
def runCycles : List Byte → State → Host.Outcome (List OpResult × State) Fault Refusal
  | [], s => .next ([], s)
  | b :: bs, s =>
    match perform (.step b) s with
    | .next (r, t) => if r.isFault then .next ([r], t) else consResult r (runCycles bs t)
    | .fault f => .fault f
    | .refused e => .refused e

end Sys2Proof.Machine
end

