-- ==== Sys2Proof/Machine/Signals.lean ====
section
/-! DEFINITION. The informative signal-level binding of spec/10_state.md R27: every operation takes effect on one rising edge of the clock on which its request is asserted, at most one request an edge (D16; log 12). -/

namespace Sys2Proof.Machine

/-- The input ports of R27, as sampled on one rising edge. -/
structure InPins where
  rst : Bool
  step : Bool
  rnd : Byte
  tick : Bool
  keyWe : Bool
  keyIdx : Fin 16
  keyVal : Bool
  ldWe : Bool
  ldOff : Addr12
  ldData : Byte
  fbAddr : BitVec 11
  deriving DecidableEq, Repr

/-- The output ports of R27. -/
structure OutPins where
  ldErr : Bool
  fbQ : Bool
  st : Byte
  soundActive : Bool
  faulted : Bool
  fcause : BitVec 3
  fpc : Word
  finfo : Info
  undec : Bool
  undecOp : Word
  undecAddr : Word
  deriving DecidableEq, Repr

/-- One request of an edge. -/
inductive Request where
  | op (o : HostOp)
  /-- LOAD of one byte: it goes to `MEM[0x200 + off]`. -/
  | loadByte (off : Addr12) (b : Byte)
  deriving DecidableEq, Repr

/-- The requests asserted on an edge. -/
def InPins.requests (p : InPins) : List Request :=
  (if p.rst then [.op .reset] else []) ++ (if p.step then [.op (.step p.rnd)] else []) ++
  (if p.tick then [.op .tick] else []) ++ (if p.keyWe then [.op (.key p.keyIdx.val p.keyVal)] else []) ++
  (if p.ldWe then [.loadByte p.ldOff p.ldData] else [])

/-- LOAD of one byte; an offset past the program area is refused with `ld_err`. -/
def State.loadByte (s : State) (off : Addr12) (b : Byte) : OpResult × State :=
  if off.toNat < Config.progMax then (.ok, s.writeBytes (Config.progBase + off.toNat) [b])
  else (.error .loadTooLarge, s)

/-- One rising edge: no request leaves the state, one request takes effect, two or more have no meaning and get no
step (R26, R27; log 11, log 12). -/
def edge (p : InPins) (s : State) : Host.Outcome (OpResult × State) Fault Refusal :=
  match p.requests with
  | [] => .next (.nothing, s)
  | [.op o] => perform o s
  | [.loadByte off b] => .next (s.loadByte off b)
  | _ => .refused .overlappingRequests

/-- The outputs when an edge answered `r` and left the state `s`; `fb_q` is combinational in `fb_addr`. -/
def outPins (p : InPins) (r : OpResult) (s : State) : OutPins where
  ldErr := r = .error .loadTooLarge
  fbQ := s.fb.cell (p.fbAddr.toNat / 64) (p.fbAddr.toNat % 64)
  st := s.st
  soundActive := s.soundActive
  faulted := s.status = .faulted
  fcause := s.fcause.code
  fpc := s.fpc
  finfo := s.finfo
  undec := match r with | .doneUndec _ _ => true | _ => false
  undecOp := match r with | .doneUndec op _ => op | _ => 0
  undecAddr := match r with | .doneUndec _ addr => addr | _ => 0

end Sys2Proof.Machine
end

