-- ==== Sys2Proof/Safety.lean ====
section
/-! DEFINITION. What claims are stated in: safe runs, terminal states, which parts of a state an operation leaves, the host's schedules and duties (spec/70_reset_and_hazards.md R160, spec/60_exceptions.md R147), the invariant of the machine, and the fault conditions of spec/60_exceptions.md R124 as a table of their own. -/

namespace Sys2Proof.Machine

/-- A run is safe as long as the machine is RUNNING: FAULTED refutes any claim of normal completion (R128). -/
def State.safe (s : State) : Prop := s.status = .running

/-- The end of a run by R67: RUNNING, PC at most 4094, at a jump to itself. -/
def State.terminal (s : State) : Prop :=
  s.status = .running ∧ s.pc.toNat ≤ 4094 ∧
    wordOfBytes (s.readByte s.pc.toNat) (s.readByte (s.pc.toNat + 1)) = 0x1000 ||| s.pc

/-- The parts of the state a frame speaks of. -/
inductive Part where
  | regs | index | pc | stack | memory | screen | delay | sound | keys
  /-- STATUS and the fault record. -/
  | fault
  /-- The model's own `font`. -/
  | font
  /-- The model's own `rnd` and `draws`. -/
  | input
  deriving DecidableEq, Repr

/-- Two states agree on a part: a register file register by register, memory byte by byte, the screen cell by cell. -/
def Part.same (s t : State) : Part → Prop
  | .regs => ∀ x, t.reg x = s.reg x
  | .index => t.idx = s.idx
  | .pc => t.pc = s.pc
  | .stack => t.sp = s.sp ∧ t.stack = s.stack
  | .memory => ∀ a, t.readByte a = s.readByte a
  | .screen => ∀ y x, t.fb.cell y x = s.fb.cell y x
  | .delay => t.dt = s.dt
  | .sound => t.st = s.st
  | .keys => t.key = s.key
  | .fault => t.status = s.status ∧ t.fcause = s.fcause ∧ t.fpc = s.fpc ∧ t.finfo = s.finfo
  | .font => t.font = s.font
  | .input => t.rnd = s.rnd ∧ t.draws = s.draws

/-- `t` agrees with `s` on every part but those listed: the frame of an instruction. -/
def SameExcept (changed : List Part) (s t : State) : Prop := ∀ p, p ∉ changed → p.same s t

/-- `V[x] <- b` and nothing else. -/
def OnlyReg (x : RegIdx) (b : Byte) (s t : State) : Prop :=
  t.reg x = b ∧ (∀ q, q ≠ x → t.reg q = s.reg q) ∧ SameExcept [.regs] s t

/-- `V[x] <- b`, then `VF <- 1` or `0` as `flag` holds or not, and nothing else: with `x` = F only the flag is left. -/
def OnlyRegAndFlag (x : RegIdx) (b : Byte) (flag : Prop) (s t : State) : Prop :=
  (flag → t.reg 15 = 1) ∧ (¬flag → t.reg 15 = 0) ∧ (x ≠ 15 → t.reg x = b) ∧
    (∀ q, q ≠ x → q ≠ 15 → t.reg q = s.reg q) ∧ SameExcept [.regs] s t

/-- The fault `cause` with FINFO `n`, taken by the instruction whose address plus 2 is in PC (R127): PC is its address
again, FPC records it, and nothing but these four registers and PC differs. -/
def TakesFault (cause : FaultCause) (n : Nat) (s t : State) : Prop :=
  t = { s with pc := s.pc - 2, status := .faulted, fcause := cause, fpc := s.pc - 2, finfo := t.finfo } ∧
    t.finfo.toNat = n

/-- The register that an instruction writes as its plain destination, through the field X (R28). -/
def destReg : Instr → Option RegIdx
  | .ldImm x _ | .addImm x _ | .rnd x _ => some x
  | .ldReg x _ | .orReg x _ | .andReg x _ | .xorReg x _ => some x
  | .addReg x _ | .sub x _ | .shr x _ | .subn x _ | .shl x _ => some x
  | .ldVxDt x | .ldVxK x => some x
  | .cls | .ret | .jp _ | .call _ | .jpV0 _ | .ldI _ => none
  | .seImm _ _ | .sneImm _ _ | .seReg _ _ | .sneReg _ _ | .drw _ _ _ => none
  | .skp _ | .sknp _ | .ldDtVx _ | .ldStVx _ | .addI _ | .ldF _ | .ldB _ | .stRegs _ | .ldRegs _ => none

/-- The instructions that write VF as a flag: the table of R94. -/
def writesFlag : Instr → Bool
  | .addReg _ _ | .sub _ _ | .shr _ _ | .subn _ _ | .shl _ _ | .drw _ _ _ => true
  | .cls | .ret | .jp _ | .call _ | .jpV0 _ | .ldI _ => false
  | .seImm _ _ | .sneImm _ _ | .seReg _ _ | .sneReg _ _ => false
  | .ldImm _ _ | .addImm _ _ | .rnd _ _ | .ldReg _ _ | .orReg _ _ | .andReg _ _ | .xorReg _ _ => false
  | .skp _ | .sknp _ | .ldVxDt _ | .ldVxK _ | .ldDtVx _ | .ldStVx _ => false
  | .addI _ | .ldF _ | .ldB _ | .stRegs _ | .ldRegs _ => false

/-- The instructions that move PC in their execution, beside the increment of the fetch: the PC row of R28. -/
def movesPc : Instr → Bool
  | .ret | .jp _ | .call _ | .jpV0 _ => true
  | .seImm _ _ | .sneImm _ _ | .seReg _ _ | .sneReg _ _ | .skp _ | .sknp _ | .ldVxK _ => true
  | .cls | .ldImm _ _ | .addImm _ _ | .rnd _ _ | .ldReg _ _ | .orReg _ _ | .andReg _ _ | .xorReg _ _ => false
  | .addReg _ _ | .sub _ _ | .shr _ _ | .subn _ _ | .shl _ _ | .drw _ _ _ => false
  | .ldI _ | .ldVxDt _ | .ldDtVx _ | .ldStVx _ | .addI _ | .ldF _ | .ldB _ | .stRegs _ | .ldRegs _ => false

/-- The instructions that can take a fault: those R125 does not list. -/
def canFault : Instr → Bool
  | .ret | .call _ | .drw _ _ _ | .skp _ | .sknp _ | .ldB _ | .stRegs _ | .ldRegs _ => true
  | .cls | .jp _ | .jpV0 _ | .seImm _ _ | .sneImm _ _ | .seReg _ _ | .sneReg _ _ => false
  | .ldImm _ _ | .addImm _ _ | .rnd _ _ | .ldReg _ _ | .orReg _ _ | .andReg _ _ | .xorReg _ _ => false
  | .addReg _ _ | .sub _ _ | .shr _ _ | .subn _ _ | .shl _ _ => false
  | .ldI _ | .ldVxDt _ | .ldVxK _ | .ldDtVx _ | .ldStVx _ | .addI _ | .ldF _ => false

/-- The operations that R160 lets fall between two STEPs, in any number. -/
def betweenSteps : HostOp → Bool
  | .tick | .key _ _ | .load _ | .readFb => true
  | .step _ | .reset => false

/-- The first `n` operations of an endless schedule. -/
def runFor (sched : Nat → HostOp) (n : Nat) (s : State) : Host.Outcome (List OpResult × State) Fault Refusal :=
  runSchedule ((List.range n).map sched) s

/-! ### The host's duties (R147)

The liberties are the constructors of `HostOp`, each a move on any state. What is forbidden has no move: no overlap of
operations, no write but through LOAD and RESET. The duties are assumptions that a claim takes as premises. RESET before
the first use is no assumption of its own (log 14); RESET after a fault is the way out of FAULTED, which nothing else is. -/

/-- An operation inside the caller's contract: an image that fits, a key index up to 15 (R132, R147). -/
def HostOp.inContract : HostOp → Bool
  | .load image => imageFits image
  | .key k _ => decide (k < 16)
  | .reset | .step _ | .tick | .readFb => true

/-- The host goes on stepping: the assumption of a claim that a program makes progress (R147). -/
def StepsKeepComing (sched : Nat → HostOp) : Prop := ∀ n, ∃ m b, n ≤ m ∧ sched m = .step b

/-- The host goes on ticking: the assumption of a claim that DT runs out (R138, R147, R160). -/
def TicksKeepArriving (sched : Nat → HostOp) : Prop := ∀ n, ∃ m, n ≤ m ∧ sched m = .tick

/-- Key events are delivered: again and again a key is pressed and not released before the core is re-entered, since a
press and a release between the same two STEPs are invisible (R140, R147, R158, R160). -/
def KeyEventsArrive (sched : Nat → HostOp) : Prop :=
  ∀ n, ∃ m k, n ≤ m ∧ k < 16 ∧ sched m = .key k true ∧
    ∀ j, m < j → sched j = .key k false → ∃ i b, m < i ∧ i < j ∧ sched i = .step b

/-- The operations that leave the instruction word at `a` and the progress of a run alone: no RESET, no LOAD over the
word. What a STEP runs may still store there. -/
def HostOp.spares (a : Nat) : HostOp → Bool
  | .reset => false
  | .load image => !imageFits image || decide (Config.progBase + image.length ≤ a) || decide (a + 2 ≤ Config.progBase)
  | .step _ | .tick | .key _ _ | .readFb => true

/-- In the run of `ops` from `s` no STEP runs an FX15. -/
def DelayNotSet (ops : List HostOp) (s : State) : Prop :=
  ∀ pre b post rs u x, ops = pre ++ .step b :: post → runSchedule pre s = .next (rs, u) → u.status = .running →
    u.fetchWord ≠ some (encode (.ldDtVx x))

/-- The sprite bit that `DXYN` aims at cell `(y, x)`, if any: the sprite of the rows `bs` at row `vy`, column `vx`
covers the cell, and its bit there (R108 to R110). Stated by the cell, not by the loop. -/
def spriteBit (vx vy : Byte) (bs : List Byte) (y x : Nat) : Bool :=
  let c := (x + 64 - vx.toNat % 64) % 64
  let r := (y + 32 - vy.toNat % 32) % 32
  if c < 8 then ((bs[r]?).getD 0).getLsbD (7 - c) else false

/-- The faults of R124: cause and FINFO of the fault a RUNNING machine takes in its next STEP, if any. -/
def expectedFault (s : State) : Option (FaultCause × Nat) :=
  if 4094 < s.pc.toNat then some (.fetchOob, s.pc.toNat)
  else
    match decode (wordOfBytes (s.readByte s.pc.toNat) (s.readByte (s.pc.toNat + 1))) with
    | .error _ => none
    | .ok (.drw _ _ n) =>
      if 0 < n.val ∧ 4095 < s.idx.toNat + n.val - 1 then some (.dataReadOob, max s.idx.toNat 4096) else none
    | .ok (.ldRegs x) => if 4095 < s.idx.toNat + x.val then some (.dataReadOob, max s.idx.toNat 4096) else none
    | .ok (.ldB _) => if 4095 < s.idx.toNat + 2 then some (.dataWriteOob, max s.idx.toNat 4096) else none
    | .ok (.stRegs x) => if 4095 < s.idx.toNat + x.val then some (.dataWriteOob, max s.idx.toNat 4096) else none
    | .ok (.call _) => if s.sp = 16 then some (.stackOverflow, 16) else none
    | .ok .ret => if s.sp = 0 then some (.stackUnderflow, 0) else none
    | .ok (.skp x) => if 15 < (s.reg x).toNat then some (.keyIndexOob, (s.reg x).toNat) else none
    | .ok (.sknp x) => if 15 < (s.reg x).toNat then some (.keyIndexOob, (s.reg x).toNat) else none
    | .ok _ => none

/-- The fault record tells the truth (R20, R21, R124, R127): at its reset value while RUNNING; while FAULTED it names
the address PC still holds, and the condition of its cause still holds, since nothing but RESET moves PC, I or SP. -/
def State.RecordTrue (s : State) : Prop :=
  match s.status with
  | .running => s.fcause = .none ∧ s.fpc = 0 ∧ s.finfo = 0
  | .faulted =>
    s.fpc = s.pc ∧
    match s.fcause with
    | .none => False
    | .fetchOob => 4094 < s.pc.toNat ∧ s.finfo.toNat = s.pc.toNat
    | .dataReadOob => s.pc.toNat ≤ 4094 ∧ 4095 < s.idx.toNat + 15 ∧ s.finfo.toNat = max s.idx.toNat 4096
    | .dataWriteOob => s.pc.toNat ≤ 4094 ∧ 4095 < s.idx.toNat + 15 ∧ s.finfo.toNat = max s.idx.toNat 4096
    | .stackOverflow => s.pc.toNat ≤ 4094 ∧ s.sp = 16 ∧ s.finfo.toNat = 16
    | .stackUnderflow => s.pc.toNat ≤ 4094 ∧ s.sp = 0 ∧ s.finfo.toNat = 0
    | .keyIndexOob => s.pc.toNat ≤ 4094 ∧ 15 < s.finfo.toNat ∧ s.finfo.toNat < 256

/-- The invariant of the machine: memory in canonical form (R30), PC at most 0x10FE (R13), every stack entry at most
4096 (R72), a true fault record. SP's range (R14), FCAUSE's codes (R21) and the registers' widths are their types'. -/
structure State.Inv (s : State) : Prop where
  memory : Memory.wf s.font s.mem
  pcBound : s.pc.toNat ≤ 0x10FE
  stackBound : ∀ k : Fin 16, (s.stack[k.val]).toNat ≤ 4096
  record : s.RecordTrue

/-- Two states that differ at most in the stack entries at and above SP, which no rule reads (R15). -/
structure State.AgreeLive (s t : State) : Prop where
  live : ∀ k : Fin 16, k.val < s.sp.val → t.stack[k.val] = s.stack[k.val]
  rest : t = { s with stack := t.stack }

end Sys2Proof.Machine
end

