-- ==== Sys2Proof/Certificates/Slice0/Obligations.lean ====
section
/-! DEFINITION. The statements for the provers. Each docstring names the rule, or the spec's decision D<n>, that it rests on. In a statement about `exec` the state's PC is already the instruction's address plus 2 (spec/40_cycle_and_dispatch.md R62). -/

open Sys2Proof Sys2Proof.Machine

/-! ### Encoding -/

/-- Decoding an encoded instruction gives it back, every operand at every value (30_encoding.md sections 1 to 3;
the opcode patterns are the spec's general knowledge, log 9). -/
def Obligations.DecodeOfEncodeIsTheInstruction : Prop :=
  ∀ i : Instr, decode (encode i) = .ok i ∧ ∀ rest, decodeBytes (encodeBytes i ++ rest) = .ok (i, rest)

/-- A word that decodes is the encoding of what it decodes to: the decoder drops no bit (30_encoding.md sections 2, 3;
log 9). -/
def Obligations.EncodeOfDecodeIsTheWord : Prop :=
  ∀ (op : Word) (i : Instr), decode op = .ok i → encode i = op

/-- The decoder's nibble tuples and the table's mask and match columns say the same (30_encoding.md section 3; log 9): a word
decodes into a row exactly when it matches it, at most one row matches, no match is unrecognized. -/
def Obligations.DecodeFollowsMaskAndMatch : Prop :=
  (∀ op i, decode op = .ok i → op &&& i.rowMask = i.rowMatch) ∧
  (∀ op (i : Instr), op &&& i.rowMask = i.rowMatch → ∃ j, decode op = .ok j ∧ j.tag = i.tag) ∧
  (∀ op (i j : Instr), op &&& i.rowMask = i.rowMatch → op &&& j.rowMask = j.rowMatch → i.tag = j.tag) ∧
  (∀ op, (∀ i : Instr, op &&& i.rowMask ≠ i.rowMatch) → decode op = .error (.unrecognized op))

/-- Which words are unrecognized, by first nibble (30_encoding.md section 4; fixed nibbles matched exactly, D9, log 9). -/
def Obligations.UnrecognizedWordsByFirstNibble : Prop :=
  ∀ op, decode op = .error (.unrecognized op) ↔
    (n1 op = 0 ∧ op ≠ 0x00E0 ∧ op ≠ 0x00EE) ∨ (n1 op = 5 ∧ n4 op ≠ 0) ∨ (n1 op = 9 ∧ n4 op ≠ 0) ∨
    (n1 op = 8 ∧ n4 op ∈ [0x8, 0x9, 0xA, 0xB, 0xC, 0xD, 0xF]) ∨
    (n1 op = 0xE ∧ fieldNN op ∉ [0x9E, 0xA1]) ∨
    (n1 op = 0xF ∧ fieldNN op ∉ [0x07, 0x0A, 0x15, 0x18, 0x1E, 0x29, 0x33, 0x55, 0x65])

/-- Words written out bit by bit from the opcode table decode to their instructions (30_encoding.md section 3; log 9). -/
def Obligations.SampleWordsDecode : Prop :=
  decode 0x00E0 = .ok .cls ∧ decode 0x2FFF = .ok (.call 0xFFF) ∧ decode 0x3A05 = .ok (.seImm 0xA 0x05) ∧
  decode 0x8AB7 = .ok (.subn 0xA 0xB) ∧ decode 0xD015 = .ok (.drw 0 1 5) ∧ decode 0xE1A1 = .ok (.sknp 1) ∧
  decode 0xF165 = .ok (.ldRegs 1) ∧ decode 0x5121 = .error (.unrecognized 0x5121)

/-- R47: every operand is its bits of the word, zero-extended; a register number is 0 to 15. -/
def Obligations.OperandsAreZeroExtendedFields : Prop :=
  ∀ op : Word,
    (fieldX op).val = op.toNat / 256 % 16 ∧ (fieldY op).val = op.toNat / 16 % 16 ∧ (fieldN op).val = op.toNat % 16 ∧
    (fieldNN op).toNat = op.toNat % 256 ∧ (fieldNNN op).toNat = op.toNat % 4096 ∧
    (zextAddr (fieldNNN op)).toNat = op.toNat % 4096 ∧ (fieldX op).val < 16 ∧ (fieldY op).val < 16

/-! ### The cycle -/

/-- When the bytes at PC decode, a STEP of a RUNNING machine is the instruction's effect with PC incremented
(40_cycle_and_dispatch.md section 1). -/
def Obligations.StepRunsTheDecodedInstruction : Prop :=
  ∀ (s : State) (i : Instr), s.status = .running → s.pc.toNat ≤ 4094 →
    decode (wordOfBytes (s.readByte s.pc.toNat) (s.readByte (s.pc.toNat + 1))) = .ok i →
    step s = exec i { s with pc := s.pc + 2 }

/-- The byte at the lower address is the high byte of the word fetched, at any PC, even or odd; so the bytes of a stored
instruction are fetched as its word (20_memory.md sections 2, 3). -/
def Obligations.FetchIsBigEndian : Prop :=
  ∀ s : State, s.pc.toNat ≤ 4094 →
    (∃ op, s.fetchWord = some op ∧ op.extractLsb' 8 8 = s.readByte s.pc.toNat ∧
      op.extractLsb' 0 8 = s.readByte (s.pc.toNat + 1)) ∧
    ∀ i : Instr, (s.writeBytes s.pc.toNat (encodeBytes i)).fetchWord = some (encode i)

/-- A word that is no instruction changes PC only, and the STEP answers the event UNDEC with the word and its address
(40_cycle_and_dispatch.md section 2; the event's form is D14). -/
def Obligations.UnrecognizedWordIsReportedNoOp : Prop :=
  ∀ (s : State) (op : Word), s.status = .running → s.pc.toNat ≤ 4094 →
    op = wordOfBytes (s.readByte s.pc.toNat) (s.readByte (s.pc.toNat + 1)) → decode op = .error (.unrecognized op) →
    step s = .next { s with pc := s.pc + 2 } ∧
    ∀ r, perform (.step r) s = .next (.doneUndec op s.pc, { s with pc := s.pc + 2, rnd := r })

/-- A fetch at a PC above 4094 faults at once, with FPC and FINFO that PC (40_cycle_and_dispatch.md section 1, D6; fault
entry D2, D3, D4). -/
def Obligations.FetchOutsideMemoryFaults : Prop :=
  ∀ s : State, s.status = .running → 4094 < s.pc.toNat →
    ∃ t, step s = .next t ∧
      t = { s with status := .faulted, fcause := .fetchOob, fpc := s.pc, finfo := t.finfo } ∧
      t.finfo.toNat = s.pc.toNat

/-- While FAULTED a STEP changes nothing and answers the recorded cause; no operation but RESET leaves FAULTED or
touches the record, and RESET leaves it (60_exceptions.md section 2; D2, D19). The input byte is no state. -/
def Obligations.FaultedIsStickyUntilReset : Prop :=
  ∀ s : State, s.status = .faulted →
    step s = .next s ∧
    (∀ r, perform (.step r) s = .next (.fault s.fcause, { s with rnd := r })) ∧
    (∀ op, op ≠ .reset → ∃ r t, perform op s = .next (r, t) ∧ t.status = .faulted ∧ t.fcause = s.fcause ∧
      t.fpc = s.fpc ∧ t.finfo = s.finfo ∧ t.pc = s.pc ∧ t.v = s.v) ∧
    ∃ t, perform .reset s = .next (.nothing, t) ∧ t.status = .running ∧ t.fcause = .none

/-- A cycle that faults commits nothing: exactly STATUS, FCAUSE, FPC and FINFO change, and FPC is the PC the cycle began
with (60_exceptions.md section 2; D3). -/
def Obligations.FaultsArePrecise : Prop :=
  ∀ s t : State, s.status = .running → step s = .next t → t.status = .faulted →
    t = { s with status := .faulted, fcause := t.fcause, fpc := s.pc, finfo := t.finfo } ∧ t.fcause ≠ .none

/-- A RUNNING machine faults in its next STEP exactly on the conditions of the table of causes, with the table's FINFO
(60_exceptions.md section 2; D1, D4, D5). -/
def Obligations.FaultsAreThoseOfTheTable : Prop :=
  ∀ s : State, s.status = .running → ∃ t, step s = .next t ∧
    match expectedFault s with
    | none => t.status = .running
    | some (cause, info) => t.status = .faulted ∧ t.fcause = cause ∧ t.finfo.toNat = info

/-- Only CALL, RET, DRW with N above 0, LD_B, ST_REGS, LD_REGS, SKP and SKNP can fault (60_exceptions.md section 2). -/
def Obligations.OnlyTheListedInstructionsFault : Prop :=
  ∀ (i : Instr) (s t : State), s.status = .running → exec i s = .next t → t.status = .faulted →
    i = .ret ∨ (∃ nnn, i = .call nnn) ∨ (∃ x y n, i = .drw x y n ∧ n ≠ 0) ∨ (∃ x, i = .ldB x) ∨
    (∃ x, i = .stRegs x) ∨ (∃ x, i = .ldRegs x) ∨ (∃ x, i = .skp x) ∨ ∃ x, i = .sknp x

/-- The model's outcome of every STEP and of every operation is `next`, never `fault` or `refused`: FAULTED states count as
next (log 4; 30_encoding.md section 4: the decoder is total and the executor gives every word a meaning). An operation
answers a host error exactly when the host breaks its contract, and then changes nothing (60_exceptions.md sections 4,
11). -/
def Obligations.EveryOperationAnswersAState : Prop :=
  (∀ s : State, ∃ t, step s = .next t) ∧ ∀ (op : HostOp) (s : State), ∃ r t, perform op s = .next (r, t) ∧
    ((∃ e, r = .error e) ↔ op.inContract = false) ∧ (op.inContract = false → t = s)

/-- A batch of cycles is its STEP operations under a schedule of STEPs alone, result for result, up to and including the
first FAULT; the STEPs it leaves out would answer that same FAULT and change nothing (40_cycle_and_dispatch.md sections 1,
3; D27). The input byte is no state. -/
def Obligations.BatchEqualsItsSteps : Prop :=
  ∀ (bs : List Byte) (s : State), ∃ rs t u,
    runCycles bs s = .next (rs, t) ∧
    runSchedule (bs.map .step) s =
      .next (rs ++ List.replicate (bs.length - rs.length) (.fault t.fcause), u) ∧
    rs.length ≤ bs.length ∧ (rs.length < bs.length → t.status = .faulted) ∧
    (∀ r ∈ rs.dropLast, r.isFault = false) ∧ u = { t with rnd := u.rnd }

/-! ### Registers and ALU -/

/-- R82, R84: set and copy write VX alone, VF only as VX. -/
def Obligations.SetAndCopyWriteOneRegister : Prop :=
  ∀ (s : State) (x y : RegIdx) (nn : Byte),
    (∃ t, exec (.ldImm x nn) s = .next t ∧ OnlyReg x nn s t) ∧
    ∃ t, exec (.ldReg x y) s = .next t ∧ OnlyReg x (s.reg y) s t

/-- R83: the sum modulo 256, and no other register, so no flag. -/
def Obligations.AddImmediateWritesNoFlag : Prop :=
  ∀ (s : State) (x : RegIdx) (nn : Byte),
    ∃ t, exec (.addImm x nn) s = .next t ∧ OnlyReg x (BitVec.ofNat 8 (((s.reg x).toNat + nn.toNat) % 256)) s t

/-- OR, AND, XOR write VX alone; that VF keeps its value is D12 (42_alu.md section 3). -/
def Obligations.LogicWritesNoFlag : Prop :=
  ∀ (s : State) (x y : RegIdx),
    (∃ t, exec (.orReg x y) s = .next t ∧ OnlyReg x (s.reg x ||| s.reg y) s t) ∧
    (∃ t, exec (.andReg x y) s = .next t ∧ OnlyReg x (s.reg x &&& s.reg y) s t) ∧
    ∃ t, exec (.xorReg x y) s = .next t ∧ OnlyReg x (s.reg x ^^^ s.reg y) s t

/-- 8XY4: the sum modulo 256 and VF the carry (42_alu.md section 4); with X = F the flag is left (D11). -/
def Obligations.AddRegistersSetsCarry : Prop :=
  ∀ (s : State) (x y : RegIdx), ∃ t, exec (.addReg x y) s = .next t ∧
    OnlyRegAndFlag x (BitVec.ofNat 8 (((s.reg x).toNat + (s.reg y).toNat) % 256))
      (255 < (s.reg x).toNat + (s.reg y).toNat) s t

/-- 8XY5 and 8XY7: the difference modulo 256 and VF = 1 exactly when no borrow occurred, equal operands included
(42_alu.md section 4); with X = F the flag is left (D11). -/
def Obligations.SubtractSetsNoBorrow : Prop :=
  ∀ (s : State) (x y : RegIdx),
    (∃ t, exec (.sub x y) s = .next t ∧
      OnlyRegAndFlag x (BitVec.ofInt 8 ((s.reg x).toNat - (s.reg y).toNat : Int))
        ((s.reg y).toNat ≤ (s.reg x).toNat) s t) ∧
    ∃ t, exec (.subn x y) s = .next t ∧
      OnlyRegAndFlag x (BitVec.ofInt 8 ((s.reg y).toNat - (s.reg x).toNat : Int))
        ((s.reg x).toNat ≤ (s.reg y).toNat) s t

/-- 8XY6 and 8XYE: VX halved, or doubled modulo 256, and VF the bit shifted out, whatever Y is and whatever VY holds
(42_alu.md section 5); with X = F the flag is left (D11). -/
def Obligations.ShiftsIgnoreYAndKeepTheBitOut : Prop :=
  ∀ (s : State) (x y : RegIdx),
    (∃ t, exec (.shr x y) s = .next t ∧
      OnlyRegAndFlag x (BitVec.ofNat 8 ((s.reg x).toNat / 2)) ((s.reg x).toNat % 2 = 1) s t) ∧
    ∃ t, exec (.shl x y) s = .next t ∧
      OnlyRegAndFlag x (BitVec.ofNat 8 (2 * (s.reg x).toNat % 256)) (128 ≤ (s.reg x).toNat) s t

/-- CXNN: VX is the STEP's byte AND the immediate, for every byte (42_alu.md section 6; a free input, D13). The model
then renews its own input field (log 2). -/
def Obligations.RandomIsTheInputMasked : Prop :=
  ∀ (s : State) (x : RegIdx) (nn r : Byte), ∃ t, exec (.rnd x nn) { s with rnd := r } = .next t ∧
    t.reg x = r &&& nn ∧ (∀ q, q ≠ x → t.reg q = s.reg q) ∧ SameExcept [.regs, .input] s t

/-- No instruction but CXNN reads the random byte: another byte gives the same next state (42_alu.md section 6; D13). -/
def Obligations.OnlyRandomReadsTheInput : Prop :=
  ∀ (i : Instr) (s t : State) (r : Byte), (∀ x nn, i ≠ .rnd x nn) → exec i s = .next t →
    exec i { s with rnd := r } = .next { t with rnd := r }

/-- A register changes only as the destination X of a destination-writing instruction, in the range of FX65, or as the
flag VF of the six flag writers (42_alu.md section 1, 10_state.md section 7; silence on other writes is D12). -/
def Obligations.RegistersChangeOnlyAsListed : Prop :=
  ∀ (i : Instr) (s t : State) (q : RegIdx), exec i s = .next t → t.reg q ≠ s.reg q →
    destReg i = some q ∨ (q = 15 ∧ writesFlag i = true) ∨ ∃ x, i = .ldRegs x ∧ q.val ≤ x.val

/-! ### Flow -/

/-- R71: PC is the zero-extended NNN, and nothing else changes. -/
def Obligations.JumpSetsPc : Prop :=
  ∀ (s : State) (nnn : Addr12), ∃ t, exec (.jp nnn) s = .next t ∧ t.pc.toNat = nnn.toNat ∧ SameExcept [.pc] s t

/-- R74: PC is V0 + NNN, never reduced modulo 4096 (the sum is at most 0x10FE), and nothing else changes. -/
def Obligations.JumpWithOffsetAddsV0 : Prop :=
  ∀ (s : State) (nnn : Addr12), ∃ t, exec (.jpV0 nnn) s = .next t ∧
    t.pc.toNat = (s.reg 0).toNat + nnn.toNat ∧ t.pc.toNat ≤ 0x10FE ∧ SameExcept [.pc] s t

/-- 2NNN pushes PC0 + 2 and jumps; with 16 entries on the stack it takes STACK_OVERFLOW (41_flow.md sections 1, 2; D1). -/
def Obligations.CallPushesTheReturnAddress : Prop :=
  ∀ (s : State) (nnn : Addr12),
    (∀ h : s.sp.val < 16, ∃ t, exec (.call nnn) s = .next t ∧ t.pc.toNat = nnn.toNat ∧ t.sp.val = s.sp.val + 1 ∧
      t.stack[s.sp.val] = s.pc ∧ (∀ k : Fin 16, k.val ≠ s.sp.val → t.stack[k.val] = s.stack[k.val]) ∧
      SameExcept [.pc, .stack] s t) ∧
    (s.sp = 16 → ∃ t, exec (.call nnn) s = .next t ∧ TakesFault .stackOverflow 16 s t)

/-- 00EE takes the top entry into PC, leaving it in place (D23); with an empty stack it takes STACK_UNDERFLOW
(41_flow.md sections 1, 2; D1). -/
def Obligations.ReturnPopsIntoPc : Prop :=
  ∀ s : State,
    (∀ h : 0 < s.sp.val, ∃ t, exec .ret s = .next t ∧ t.pc = s.stack[s.sp.val - 1] ∧ t.sp.val = s.sp.val - 1 ∧
      t.stack = s.stack ∧ SameExcept [.pc, .stack] s t) ∧
    (s.sp = 0 → ∃ t, exec .ret s = .next t ∧ TakesFault .stackUnderflow 0 s t)

/-- A return after a call, wherever the return stands, goes on after the call with the stack as deep as before it
(41_flow.md section 1). -/
def Obligations.ReturnUndoesCall : Prop :=
  ∀ (s : State) (nnn : Addr12) (at' : Word), s.sp.val < 16 → ∃ t u, exec (.call nnn) s = .next t ∧
    exec .ret { t with pc := at' } = .next u ∧ u.pc = s.pc ∧ u.sp = s.sp ∧
    (∀ k : Fin 16, k.val < s.sp.val → u.stack[k.val] = s.stack[k.val]) ∧ SameExcept [.stack] s u

/-- R75, R76: PC moves on by 2 exactly when VX equals, or differs from, the immediate; nothing else changes. -/
def Obligations.SkipsOnImmediate : Prop :=
  ∀ (s : State) (x : RegIdx) (nn : Byte),
    (∃ t, exec (.seImm x nn) s = .next t ∧ (s.reg x = nn → t.pc = s.pc + 2) ∧ (s.reg x ≠ nn → t.pc = s.pc) ∧
      SameExcept [.pc] s t) ∧
    ∃ t, exec (.sneImm x nn) s = .next t ∧ (s.reg x ≠ nn → t.pc = s.pc + 2) ∧ (s.reg x = nn → t.pc = s.pc) ∧
      SameExcept [.pc] s t

/-- PC moves on by 2 exactly when VX equals, or differs from, VY; a register equals itself (41_flow.md section 3). -/
def Obligations.SkipsOnRegister : Prop :=
  ∀ (s : State) (x y : RegIdx),
    (∃ t, exec (.seReg x y) s = .next t ∧ (s.reg x = s.reg y → t.pc = s.pc + 2) ∧
      (s.reg x ≠ s.reg y → t.pc = s.pc) ∧ SameExcept [.pc] s t) ∧
    ∃ t, exec (.sneReg x y) s = .next t ∧ (s.reg x ≠ s.reg y → t.pc = s.pc + 2) ∧
      (s.reg x = s.reg y → t.pc = s.pc) ∧ SameExcept [.pc] s t

/-- A STEP at a jump to itself leaves the whole state as it was (40_cycle_and_dispatch.md section 3; D29). -/
def Obligations.JumpToSelfIsStable : Prop :=
  ∀ s : State, s.terminal → step s = .next s

/-! ### Index register and memory -/

/-- R96: I is the zero-extended NNN, and nothing else changes. -/
def Obligations.SetIndexLoadsNnn : Prop :=
  ∀ (s : State) (nnn : Addr12), ∃ t, exec (.ldI nnn) s = .next t ∧ t.idx.toNat = nnn.toNat ∧ t.idx.toNat ≤ 4095 ∧
    SameExcept [.index] s t

/-- FX1E adds VX to I modulo 65536 (D25) and writes no flag (D12); FX29 puts the whole byte VX times 5 into I (D22)
(43_index_memory.md section 2). -/
def Obligations.IndexArithmetic : Prop :=
  ∀ (s : State) (x : RegIdx),
    (∃ t, exec (.addI x) s = .next t ∧ t.idx.toNat = (s.idx.toNat + (s.reg x).toNat) % 65536 ∧
      SameExcept [.index] s t) ∧
    ∃ t, exec (.ldF x) s = .next t ∧ t.idx.toNat = (s.reg x).toNat * 5 ∧ SameExcept [.index] s t

/-- FX33 stores the three decimal digits of VX at I, I + 1, I + 2 and nothing else, or, where I + 2 lies past 4095, takes
DATA_WRITE_OOB with nothing stored (43_index_memory.md section 3; D5). -/
def Obligations.BcdStoresThreeDigits : Prop :=
  ∀ (s : State) (x : RegIdx),
    (s.ea 2 ≤ 4095 → ∃ t, exec (.ldB x) s = .next t ∧
      (t.readByte (s.ea 0)).toNat = (s.reg x).toNat / 100 ∧
      (t.readByte (s.ea 1)).toNat = (s.reg x).toNat / 10 % 10 ∧
      (t.readByte (s.ea 2)).toNat = (s.reg x).toNat % 10 ∧
      (∀ a, a < s.ea 0 ∨ s.ea 2 < a → t.readByte a = s.readByte a) ∧ SameExcept [.memory] s t) ∧
    (4095 < s.ea 2 → ∃ t, exec (.ldB x) s = .next t ∧ TakesFault .dataWriteOob (max s.idx.toNat 4096) s t)

/-- FX55 stores V0 to VX at I to I + X and nothing else, I unchanged (D12), or, where I + X lies past 4095, takes
DATA_WRITE_OOB with nothing stored (43_index_memory.md section 3; D5). -/
def Obligations.StoreBlockStoresTheRange : Prop :=
  ∀ (s : State) (x : RegIdx),
    (s.ea x.val ≤ 4095 → ∃ t, exec (.stRegs x) s = .next t ∧
      (∀ k : RegIdx, k.val ≤ x.val → t.readByte (s.ea k.val) = s.reg k) ∧
      (∀ a, a < s.ea 0 ∨ s.ea x.val < a → t.readByte a = s.readByte a) ∧ SameExcept [.memory] s t) ∧
    (4095 < s.ea x.val → ∃ t, exec (.stRegs x) s = .next t ∧ TakesFault .dataWriteOob (max s.idx.toNat 4096) s t)

/-- FX65 loads V0 to VX from I to I + X, the registers above VX and I unchanged (D12), or, where I + X lies past 4095,
takes DATA_READ_OOB with no register written (43_index_memory.md section 3; D5). -/
def Obligations.LoadBlockLoadsTheRange : Prop :=
  ∀ (s : State) (x : RegIdx),
    (s.ea x.val ≤ 4095 → ∃ t, exec (.ldRegs x) s = .next t ∧
      (∀ k : RegIdx, k.val ≤ x.val → t.reg k = s.readByte (s.ea k.val)) ∧
      (∀ k : RegIdx, x.val < k.val → t.reg k = s.reg k) ∧ SameExcept [.regs] s t) ∧
    (4095 < s.ea x.val → ∃ t, exec (.ldRegs x) s = .next t ∧ TakesFault .dataReadOob (max s.idx.toNat 4096) s t)

/-- Storing V0 to VX and loading them back, whatever the registers hold and wherever the load stands, gives V0 to VX
again (95_test_vectors.md S8, 43_index_memory.md section 3). -/
def Obligations.StoreThenLoadRestoresRegisters : Prop :=
  ∀ (s : State) (x : RegIdx) (w : Vector Byte 16) (at' : Word), s.ea x.val ≤ 4095 →
    ∃ t u, exec (.stRegs x) s = .next t ∧ exec (.ldRegs x) { t with v := w, pc := at' } = .next u ∧
      (∀ k : RegIdx, k.val ≤ x.val → u.reg k = s.reg k) ∧ ∀ k : RegIdx, x.val < k.val → u.reg k = w[k.val]

/-- A store of FX55 or FX33 over the next instruction, over both bytes of its word or over either one, is seen by its
fetch, and a byte that the store does not reach is fetched as before: no buffer stands between (20_memory.md section 7). -/
def Obligations.StoreIsSeenByTheNextFetch : Prop :=
  ∀ (s : State) (x : RegIdx), s.pc.toNat ≤ 4094 →
    (s.ea x.val ≤ 4095 → ∃ t hi lo, exec (.stRegs x) s = .next t ∧ t.fetchWord = some (wordOfBytes hi lo) ∧
      (∀ k : RegIdx, k.val ≤ x.val → (s.pc.toNat = s.ea k.val → hi = s.reg k) ∧
        (s.pc.toNat + 1 = s.ea k.val → lo = s.reg k)) ∧
      (s.pc.toNat < s.ea 0 ∨ s.ea x.val < s.pc.toNat → hi = s.readByte s.pc.toNat) ∧
      (s.pc.toNat + 1 < s.ea 0 ∨ s.ea x.val < s.pc.toNat + 1 → lo = s.readByte (s.pc.toNat + 1))) ∧
    (s.ea 2 ≤ 4095 → ∃ t hi lo, exec (.ldB x) s = .next t ∧ t.fetchWord = some (wordOfBytes hi lo) ∧
      (∀ k : Fin 3, (s.pc.toNat = s.ea k.val → hi.toNat = (s.reg x).toNat / 10 ^ (2 - k.val) % 10) ∧
        (s.pc.toNat + 1 = s.ea k.val → lo.toNat = (s.reg x).toNat / 10 ^ (2 - k.val) % 10)) ∧
      (s.pc.toNat < s.ea 0 ∨ s.ea 2 < s.pc.toNat → hi = s.readByte s.pc.toNat) ∧
      (s.pc.toNat + 1 < s.ea 0 ∨ s.ea 2 < s.pc.toNat + 1 → lo = s.readByte (s.pc.toNat + 1)))

/-! ### Display -/

/-- R107: every cell off, and nothing else changes. -/
def Obligations.ClearTurnsEveryCellOff : Prop :=
  ∀ s : State, ∃ t, exec .cls s = .next t ∧ (∀ y x, t.fb.cell y x = false) ∧ SameExcept [.screen] s t

/-- DXYN by the cell, not by the loop: each cell is XORed with the sprite bit aimed at it, wrapping, and VF says whether a
lit cell was turned off (44_display.md sections 1, 3; bit 7 leftmost is D10, N = 0 is D24). Where a row lies past 4095 it
takes DATA_READ_OOB and draws nothing (D5). -/
def Obligations.DrawXorsTheSprite : Prop :=
  ∀ (s : State) (x y : RegIdx) (n : RowCount) (rows : List Byte),
    rows = (List.range n.val).map (fun r => s.readByte (s.ea r)) →
    (n.val = 0 ∨ s.ea (n.val - 1) ≤ 4095 → ∃ t, exec (.drw x y n) s = .next t ∧
      (∀ r c, t.fb.cell r c = (s.fb.cell r c ^^ spriteBit (s.reg x) (s.reg y) rows r c)) ∧
      ((∃ r c, s.fb.cell r c = true ∧ spriteBit (s.reg x) (s.reg y) rows r c = true) → t.reg 15 = 1) ∧
      ((∀ r c, s.fb.cell r c = true → spriteBit (s.reg x) (s.reg y) rows r c = false) → t.reg 15 = 0) ∧
      (∀ q, q ≠ 15 → t.reg q = s.reg q) ∧ SameExcept [.regs, .screen] s t) ∧
    (0 < n.val ∧ 4095 < s.ea (n.val - 1) → ∃ t, exec (.drw x y n) s = .next t ∧
      TakesFault .dataReadOob (max s.idx.toNat 4096) s t)

/-- Two identical draws restore the screen, whatever it held; over cells that were off a sprite that is not all zero
answers VF = 0 and then VF = 1 (44_display.md section 3). VF as a coordinate is overwritten by the first draw. -/
def Obligations.DrawingTwiceRestoresTheScreen : Prop :=
  ∀ (s : State) (x y : RegIdx) (n : RowCount) (rows : List Byte) (at' : Word), x ≠ 15 → y ≠ 15 →
    rows = (List.range n.val).map (fun r => s.readByte (s.ea r)) → (n.val = 0 ∨ s.ea (n.val - 1) ≤ 4095) →
    ∃ t u, exec (.drw x y n) s = .next t ∧ exec (.drw x y n) { t with pc := at' } = .next u ∧ u.fb = s.fb ∧
      ((∀ r c, spriteBit (s.reg x) (s.reg y) rows r c = true → s.fb.cell r c = false) →
        (∃ r c, spriteBit (s.reg x) (s.reg y) rows r c = true) → t.reg 15 = 0 ∧ u.reg 15 = 1)

/-- R106: only 00E0, DXYN and RESET change the framebuffer, and READ_FB shows it as it is after the draw. -/
def Obligations.OnlyClearDrawAndResetChangeTheScreen : Prop :=
  (∀ s t : State, step s = .next t → t.fb ≠ s.fb →
    ∃ i, decode (wordOfBytes (s.readByte s.pc.toNat) (s.readByte (s.pc.toNat + 1))) = .ok i ∧
      (i = .cls ∨ ∃ x y n, i = .drw x y n)) ∧
  (∀ (op : HostOp) (s t : State) (r : OpResult), op ≠ .reset → (∀ b, op ≠ .step b) → perform op s = .next (r, t) →
    t.fb = s.fb) ∧
  ∀ s : State, perform .readFb s = .next (.cells s.cells, s)

/-! ### Keypad and timers -/

/-- EX9E and EXA1 skip on the flag of the key VX; a VX above 15 names no key and takes KEY_INDEX_OOB, never masked
(45_keypad_timers.md section 1; D21). -/
def Obligations.KeySkipsReadTheFlag : Prop :=
  ∀ (s : State) (x : RegIdx),
    (∀ h : (s.reg x).toNat < 16,
      (∃ t, exec (.skp x) s = .next t ∧ (s.key[(s.reg x).toNat] = true → t.pc = s.pc + 2) ∧
        (s.key[(s.reg x).toNat] = false → t.pc = s.pc) ∧ SameExcept [.pc] s t) ∧
      ∃ t, exec (.sknp x) s = .next t ∧ (s.key[(s.reg x).toNat] = false → t.pc = s.pc + 2) ∧
        (s.key[(s.reg x).toNat] = true → t.pc = s.pc) ∧ SameExcept [.pc] s t) ∧
    (15 < (s.reg x).toNat →
      (∃ t, exec (.skp x) s = .next t ∧ TakesFault .keyIndexOob (s.reg x).toNat s t) ∧
      ∃ t, exec (.sknp x) s = .next t ∧ TakesFault .keyIndexOob (s.reg x).toNat s t)

/-- FX0A takes the least pressed key, a level test (D20); with no key pressed it rewinds PC, so that a waiting STEP leaves
the whole state as it was. Under every endless schedule with no RESET and no LOAD over the instruction, the wait ends if
STEPs keep coming and key events arrive: until then nothing but memory, timers, keys and the input byte changes, and then
VX takes the least key pressed (45_keypad_timers.md section 2, 60_exceptions.md section 11, 70_reset_and_hazards.md
section 3; D29). -/
def Obligations.KeyWaitTakesTheLeastKey : Prop :=
  ∀ (s : State) (x : RegIdx),
    (∀ k : Fin 16, s.key[k.val] = true → (∀ j : Fin 16, j.val < k.val → s.key[j.val] = false) →
      ∃ t, exec (.ldVxK x) s = .next t ∧ OnlyReg x (BitVec.ofNat 8 k.val) s t) ∧
    ((∀ k : Fin 16, s.key[k.val] = false) →
      exec (.ldVxK x) s = .next { s with pc := s.pc - 2 } ∧
      (s.pc.toNat ≤ 4094 → wordOfBytes (s.readByte s.pc.toNat) (s.readByte (s.pc.toNat + 1)) = encode (.ldVxK x) →
        step s = .next s)) ∧
    ∀ sched : Nat → HostOp, (∀ n, (sched n).spares s.pc.toNat = true) → StepsKeepComing sched → KeyEventsArrive sched →
      s.status = .running → s.fetchWord = some (encode (.ldVxK x)) →
      ∃ (n : Nat) (b : Byte) (rs : List OpResult) (u t : State) (k : Fin 16), sched n = .step b ∧
        runFor sched n s = .next (rs, u) ∧ SameExcept [.memory, .delay, .sound, .keys, .input] s u ∧
        u.key[k.val] = true ∧ (∀ j : Fin 16, j.val < k.val → u.key[j.val] = false) ∧
        runFor sched (n + 1) s = .next (rs ++ [.done], t) ∧ t.pc = s.pc + 2 ∧ t.reg x = BitVec.ofNat 8 k.val ∧
        (∀ q, q ≠ x → t.reg q = s.reg q) ∧ SameExcept [.regs, .pc, .input] u t

/-- R116, R117, R118: direct copies between VX and the timers, nothing else changes. -/
def Obligations.TimerCopies : Prop :=
  ∀ (s : State) (x : RegIdx),
    (∃ t, exec (.ldVxDt x) s = .next t ∧ OnlyReg x s.dt s t) ∧
    (∃ t, exec (.ldDtVx x) s = .next t ∧ t.dt = s.reg x ∧ SameExcept [.delay] s t) ∧
    ∃ t, exec (.ldStVx x) s = .next t ∧ t.st = s.reg x ∧ SameExcept [.sound] s t

/-! ### The host's operations -/

/-- R137: TICK takes one from each timer above zero, in any status, and touches nothing else. -/
def Obligations.TickCountsDownToZero : Prop :=
  ∀ s : State, ∃ t, perform .tick s = .next (.nothing, t) ∧ t.dt.toNat = s.dt.toNat - 1 ∧
    t.st.toNat = s.st.toNat - 1 ∧ SameExcept [.delay, .sound] s t

/-- KEY sets one flag; an index above 15 is the host error KEY_INDEX_INVALID and changes nothing (60_exceptions.md
sections 4, 7; D18, D30). -/
def Obligations.KeyOperationSetsOneFlag : Prop :=
  ∀ (s : State) (k : Nat) (pressed : Bool),
    (k < 16 → ∃ t, perform (.key k pressed) s = .next (.ok, t) ∧
      (∀ j : Fin 16, t.key[j.val] = if j.val = k then pressed else s.key[j.val]) ∧ SameExcept [.keys] s t) ∧
    (16 ≤ k → perform (.key k pressed) s = .next (.error .keyIndexInvalid, s))

/-- LOAD copies the image to 0x200 and on and touches nothing else; an image above 3584 bytes is the host error
LOAD_TOO_LARGE and changes nothing (60_exceptions.md sections 4, 8; D17, D30). -/
def Obligations.LoadCopiesTheImage : Prop :=
  ∀ (s : State) (image : List Byte),
    (image.length ≤ 3584 → ∃ t, perform (.load image) s = .next (.ok, t) ∧
      (∀ (j : Nat) (h : j < image.length), t.readByte (0x200 + j) = image[j]) ∧
      (∀ a, a < 0x200 ∨ 0x200 + image.length ≤ a → t.readByte a = s.readByte a) ∧ SameExcept [.memory] s t) ∧
    (3584 < image.length → perform (.load image) s = .next (.error .loadTooLarge, s))

/-- R143: READ_FB answers the 2048 cells in row-major order and changes no state. -/
def Obligations.ReadFbIsRowMajor : Prop :=
  ∀ s : State, ∃ cells, perform .readFb s = .next (.cells cells, s) ∧ cells.length = 2048 ∧
    ∀ y x, y < 32 → x < 64 → cells[64 * y + x]? = some (s.fb.cell y x)

/-- RESET from any state gives every piece of the spec's state its reset value, FONT at 0 to 79 (70_reset_and_hazards.md
section 1, 10_state.md section 5; the values the source does not name are D7). The last clause is the model's choice: its
own fields `font` (log 1), `rnd` and `draws` (log 2) stay as they are (log 3). -/
def Obligations.ResetGivesEveryValue : Prop :=
  ∀ s : State, ∃ t, perform .reset s = .next (.nothing, t) ∧
    (∀ x, t.reg x = 0) ∧ t.idx = 0 ∧ t.pc = 0x200 ∧ t.sp = 0 ∧ (∀ k : Fin 16, t.stack[k.val] = 0) ∧
    (∀ (a : Nat) (h : a < 80), t.readByte a = s.font[a]) ∧ (∀ a, 80 ≤ a → t.readByte a = 0) ∧
    (∀ y x, t.fb.cell y x = false) ∧ t.dt = 0 ∧ t.st = 0 ∧ (∀ k : Fin 16, t.key[k.val] = false) ∧
    t.status = .running ∧ t.fcause = .none ∧ t.fpc = 0 ∧ t.finfo = 0 ∧ SameExcept
      [.regs, .index, .pc, .stack, .memory, .screen, .delay, .sound, .keys, .fault] s t

/-- sound_active follows ST: after FX18 it says whether VX is not 0, after TICK whether ST was above 1, after RESET it is
off (60_exceptions.md section 9; D28). -/
def Obligations.SoundActiveFollowsSt : Prop :=
  ∀ (s : State) (x : RegIdx),
    (∃ t, exec (.ldStVx x) s = .next t ∧ (t.soundActive = true ↔ s.reg x ≠ 0)) ∧
    (∃ t, perform .tick s = .next (.nothing, t) ∧ (t.soundActive = true ↔ 1 < s.st.toNat)) ∧
    ∃ t, perform .reset s = .next (.nothing, t) ∧ t.soundActive = false

/-- One clock edge: no request leaves the state (the model's reading, log 12), one request is that operation, LOAD byte
by byte with offsets up to 3583, two or more get no step (10_state.md section 6; D16). -/
def Obligations.EdgeServesAtMostOneRequest : Prop :=
  ∀ (p : InPins) (s : State),
    (p.requests = [] → edge p s = .next (.nothing, s)) ∧
    (∀ op, p.requests = [.op op] → edge p s = perform op s) ∧
    (∀ off b, p.requests = [.loadByte off b] → off.toNat < 3584 →
      ∃ t, edge p s = .next (.ok, t) ∧ t.readByte (0x200 + off.toNat) = b ∧
        (∀ a, a ≠ 0x200 + off.toNat → t.readByte a = s.readByte a) ∧ SameExcept [.memory] s t) ∧
    (∀ off b, p.requests = [.loadByte off b] → 3584 ≤ off.toNat →
      edge p s = .next (.error .loadTooLarge, s)) ∧
    (2 ≤ p.requests.length → edge p s = .refused .overlappingRequests)

/-! ### The whole machine -/

/-- Which instruction can change each part of the state, part by part: the columns of the table of 10_state.md section 7,
with D12 where the source is silent. PC moves beside the increment of the fetch only in jumps, calls, returns, skips, FX0A
or a taken fault; STATUS and the fault record change only in a taken fault (60_exceptions.md section 2; D2, D3). No
instruction writes a key flag. The last two clauses are of the model's own fields: FONT, which no instruction can reach
(60_exceptions.md section 5; a field by log 1), and the input byte, which only CXNN renews (log 2). -/
def Obligations.EachPartHasItsWriters : Prop :=
  ∀ (i : Instr) (s t : State), exec i s = .next t →
    (∀ q, t.reg q ≠ s.reg q → destReg i = some q ∨ (q = 15 ∧ writesFlag i = true) ∨ ∃ x, i = .ldRegs x ∧ q.val ≤ x.val) ∧
    (t.idx ≠ s.idx → (∃ nnn, i = .ldI nnn) ∨ (∃ x, i = .addI x) ∨ ∃ x, i = .ldF x) ∧
    (t.pc ≠ s.pc → movesPc i = true ∨ (canFault i = true ∧ ∃ c n, TakesFault c n s t)) ∧
    (t.sp ≠ s.sp → (∃ nnn, i = .call nnn) ∨ i = .ret) ∧
    (t.stack ≠ s.stack → ∃ nnn, i = .call nnn) ∧
    ((∃ a, t.readByte a ≠ s.readByte a) → (∃ x, i = .ldB x) ∨ ∃ x, i = .stRegs x) ∧
    ((∃ y x, t.fb.cell y x ≠ s.fb.cell y x) → i = .cls ∨ ∃ x y n, i = .drw x y n) ∧
    (t.dt ≠ s.dt → ∃ x, i = .ldDtVx x) ∧
    (t.st ≠ s.st → ∃ x, i = .ldStVx x) ∧
    t.key = s.key ∧
    (¬Part.fault.same s t → canFault i = true ∧ ∃ c n, c ≠ .none ∧ TakesFault c n s t) ∧
    t.font = s.font ∧
    (¬Part.input.same s t → ∃ x nn, i = .rnd x nn)

/-- Every step keeps the invariant, from every state that has it: memory in canonical form, PC at most 0x10FE, stack
entries at most 4096, a true fault record (10_state.md sections 2 and 4, 20_memory.md, 60_exceptions.md section 2). The
canonical form is the model's choice (log 8); the fault record is D2 to D5. -/
def Obligations.EveryStepKeepsTheInvariant : Prop :=
  ∀ s t : State, s.Inv → step s = .next t → t.Inv

/-- The invariant holds right after reset (10_state.md section 5, D7; log 8). -/
def Obligations.ResetHasTheInvariant : Prop := State.reset.Inv

/-- Every operation of the host keeps the invariant, and so does every schedule of them (10_state.md section 6,
70_reset_and_hazards.md section 3; log 8). -/
def Obligations.EveryOperationKeepsTheInvariant : Prop :=
  (∀ (op : HostOp) (s t : State) (r : OpResult), s.Inv → perform op s = .next (r, t) → t.Inv) ∧
  ∀ (ops : List HostOp) (s t : State) (rs : List OpResult), s.Inv → runSchedule ops s = .next (rs, t) → t.Inv

/-- Stack entries at and above SP are unobservable: two states that differ only there take steps to two states that differ
only there, with the same result (10_state.md section 2; D23). -/
def Obligations.DeadStackEntriesAreUnobservable : Prop :=
  ∀ s s' t : State, s.AgreeLive s' → step s = .next t →
    ∃ t', step s' = .next t' ∧ t.AgreeLive t' ∧ stepResult s t = stepResult s' t'

/-! ### The host's schedule -/

/-- Under every schedule between two STEPs (TICK, KEY, LOAD, READ_FB in any number and order) nothing but timers, keys and
memory can change, and FX07 returns the operand of the FX15 before it less the TICKs between, never below 0. So does DT
under every schedule with STEPs in it, as long as there is no RESET and no STEP runs FX15. Under every endless schedule in
which TICKs keep arriving and no STEP runs FX15, whatever else the host does, DT reaches 0, stays there, and every FX07
from then on reads 0: what a program's wait needs of DT, beside STEPs that keep coming (70_reset_and_hazards.md section 3,
60_exceptions.md sections 6, 11; D29). -/
def Obligations.DelayUnderEverySchedule : Prop :=
  (∀ (s : State) (x y : RegIdx) (ops : List HostOp) (at' : Word), (∀ op ∈ ops, betweenSteps op = true) →
    ∃ t rs u w, exec (.ldDtVx x) s = .next t ∧ runSchedule ops t = .next (rs, u) ∧ rs.length = ops.length ∧
      SameExcept [.memory, .delay, .sound, .keys] t u ∧
      exec (.ldVxDt y) { u with pc := at' } = .next w ∧ (w.reg y).toNat = (s.reg x).toNat - ops.count .tick) ∧
  (∀ (s : State) (ops : List HostOp), .reset ∉ ops → DelayNotSet ops s →
    ∃ rs t, runSchedule ops s = .next (rs, t) ∧ rs.length = ops.length ∧ t.dt.toNat = s.dt.toNat - ops.count .tick) ∧
  ∀ (s : State) (sched : Nat → HostOp), TicksKeepArriving sched →
    (∀ n, DelayNotSet ((List.range n).map sched) s) →
    ∃ n, ∀ m, n ≤ m → ∃ rs t, runFor sched m s = .next (rs, t) ∧ t.dt = 0 ∧
      ∀ b y, sched m = .step b → t.status = .running → t.fetchWord = some (encode (.ldVxDt y)) →
        ∃ u, runFor sched (m + 1) s = .next (rs ++ [.done], u) ∧ u.reg y = 0
end

