-- ==== Sys2Proof/Laws/Decode.lean ====
section
/-! SUPPORT. The nibbles and fields of the word formats (spec/30_encoding.md R46, R47). -/

namespace Sys2Proof

/-- Every instruction is well-formed: its operand types are its fields' widths (R47). -/
theorem wellFormed_always (i : Instr) : i.wellFormed = true := by
  have hr : ∀ x : RegIdx, regFits x.val = true := fun x => decide_eq_true x.isLt
  have hn : ∀ n : RowCount, countFits n.val = true := fun n => decide_eq_true n.isLt
  have hb : ∀ b : Byte, byteFits b.toNat = true := fun b => decide_eq_true b.isLt
  have ha : ∀ a : Addr12, addrFits a.toNat = true := fun a => decide_eq_true a.isLt
  cases i <;> simp [Instr.wellFormed, hr, hn, hb, ha]

variable (op : BitVec 4) (x y n : Fin 16) (nn : Byte) (nnn : Addr12)

/-! ### The bits of a word in each format -/

theorem getLsbD_wordFA (i : Nat) :
    (wordFA op nnn).getLsbD i = if i < 12 then nnn.getLsbD i else op.getLsbD (i - 12) :=
  BitVec.getLsbD_append

theorem getLsbD_wordFXK (i : Nat) : (wordFXK op x nn).getLsbD i =
    if i < 8 then nn.getLsbD i else if i < 12 then x.val.testBit (i - 8) else op.getLsbD (i - 12) := by
  have h1 : (wordFXK op x nn).getLsbD i =
      if i < 8 then nn.getLsbD i else (op ++ (BitVec.ofFin x : BitVec 4)).getLsbD (i - 8) := BitVec.getLsbD_append
  rw [h1, BitVec.getLsbD_append]
  split
  · rfl
  · by_cases h : i < 12
    · rw [if_pos h, if_pos (by omega)]
      rfl
    · rw [if_neg h, if_neg (by omega), show i - 8 - 4 = i - 12 by omega]

theorem getLsbD_wordFXYN (i : Nat) : (wordFXYN op x y n).getLsbD i =
    if i < 4 then n.val.testBit i else if i < 8 then y.val.testBit (i - 4)
    else if i < 12 then x.val.testBit (i - 8) else op.getLsbD (i - 12) := by
  have h1 : (wordFXYN op x y n).getLsbD i = if i < 4 then n.val.testBit i else
      (op ++ (BitVec.ofFin x : BitVec 4) ++ (BitVec.ofFin y : BitVec 4)).getLsbD (i - 4) := BitVec.getLsbD_append
  rw [h1, BitVec.getLsbD_append, BitVec.getLsbD_append]
  split
  · rfl
  · by_cases h8 : i < 8
    · rw [if_pos h8, if_pos (by omega)]
      rfl
    · by_cases h : i < 12
      · rw [if_neg h8, if_neg (by omega), if_pos h, if_pos (by omega), show i - 4 - 4 = i - 8 by omega]
        rfl
      · rw [if_neg h8, if_neg (by omega), if_neg h, if_neg (by omega), show i - 4 - 4 - 4 = i - 12 by omega]

/-! ### Words and bytes (R31) -/

theorem getLsbD_wordOfBytes (hi lo : Byte) (i : Nat) :
    (wordOfBytes hi lo).getLsbD i = if i < 8 then lo.getLsbD i else hi.getLsbD (i - 8) :=
  BitVec.getLsbD_append

/-- The two bytes of a word make the word. -/
@[simp] theorem wordOfBytes_split (w : Word) : wordOfBytes (w.extractLsb' 8 8) (w.extractLsb' 0 8) = w := by
  refine BitVec.eq_of_getLsbD_eq fun i hi => ?_
  rw [getLsbD_wordOfBytes]
  split
  · simp_all
  · simp [show i - 8 < 8 by omega, show 8 + (i - 8) = i by omega]

theorem high_wordOfBytes (hi lo : Byte) : (wordOfBytes hi lo).extractLsb' 8 8 = hi := by
  refine BitVec.eq_of_getLsbD_eq fun i hi => ?_
  rw [BitVec.getLsbD_extractLsb', getLsbD_wordOfBytes, if_neg (by omega), Nat.add_sub_cancel_left]
  simp [hi]

theorem low_wordOfBytes (hi lo : Byte) : (wordOfBytes hi lo).extractLsb' 0 8 = lo := by
  refine BitVec.eq_of_getLsbD_eq fun i hi => ?_
  rw [BitVec.getLsbD_extractLsb', getLsbD_wordOfBytes, if_pos (by omega)]
  simp [hi]

/-! ### The nibble n1 and the fields of a word in each format -/

theorem slice_n1_FA : (wordFA op nnn).extractLsb' 12 4 = op := by
  refine BitVec.eq_of_getLsbD_eq fun i hi => ?_
  rw [BitVec.getLsbD_extractLsb', getLsbD_wordFA, if_neg (by omega), Nat.add_sub_cancel_left]
  simp [hi]

theorem slice_NNN_FA : (wordFA op nnn).extractLsb' 0 12 = nnn := by
  refine BitVec.eq_of_getLsbD_eq fun i hi => ?_
  rw [BitVec.getLsbD_extractLsb', getLsbD_wordFA, if_pos (by omega)]
  simp [hi]

theorem slice_n1_FXK : (wordFXK op x nn).extractLsb' 12 4 = op := by
  refine BitVec.eq_of_getLsbD_eq fun i hi => ?_
  rw [BitVec.getLsbD_extractLsb', getLsbD_wordFXK, if_neg (by omega), if_neg (by omega), Nat.add_sub_cancel_left]
  simp [hi]

theorem slice_X_FXK : (wordFXK op x nn).extractLsb' 8 4 = BitVec.ofFin x := by
  refine BitVec.eq_of_getLsbD_eq fun i hi => ?_
  rw [BitVec.getLsbD_extractLsb', getLsbD_wordFXK, if_neg (by omega), if_pos (by omega), Nat.add_sub_cancel_left]
  simp [hi, BitVec.getLsbD]

theorem slice_NN_FXK : (wordFXK op x nn).extractLsb' 0 8 = nn := by
  refine BitVec.eq_of_getLsbD_eq fun i hi => ?_
  rw [BitVec.getLsbD_extractLsb', getLsbD_wordFXK, if_pos (by omega)]
  simp [hi]

theorem slice_n3_FXK : (wordFXK op x nn).extractLsb' 4 4 = nn.extractLsb' 4 4 := by
  refine BitVec.eq_of_getLsbD_eq fun i hi => ?_
  rw [BitVec.getLsbD_extractLsb', getLsbD_wordFXK, if_pos (by omega), BitVec.getLsbD_extractLsb']

theorem slice_n4_FXK : (wordFXK op x nn).extractLsb' 0 4 = nn.extractLsb' 0 4 := by
  refine BitVec.eq_of_getLsbD_eq fun i hi => ?_
  rw [BitVec.getLsbD_extractLsb', getLsbD_wordFXK, if_pos (by omega), BitVec.getLsbD_extractLsb']

theorem slice_n1_FXYN : (wordFXYN op x y n).extractLsb' 12 4 = op := by
  refine BitVec.eq_of_getLsbD_eq fun i hi => ?_
  rw [BitVec.getLsbD_extractLsb', getLsbD_wordFXYN, if_neg (by omega), if_neg (by omega), if_neg (by omega),
    Nat.add_sub_cancel_left]
  simp [hi]

theorem slice_X_FXYN : (wordFXYN op x y n).extractLsb' 8 4 = BitVec.ofFin x := by
  refine BitVec.eq_of_getLsbD_eq fun i hi => ?_
  rw [BitVec.getLsbD_extractLsb', getLsbD_wordFXYN, if_neg (by omega), if_neg (by omega), if_pos (by omega),
    Nat.add_sub_cancel_left]
  simp [hi, BitVec.getLsbD]

theorem slice_Y_FXYN : (wordFXYN op x y n).extractLsb' 4 4 = BitVec.ofFin y := by
  refine BitVec.eq_of_getLsbD_eq fun i hi => ?_
  rw [BitVec.getLsbD_extractLsb', getLsbD_wordFXYN, if_neg (by omega), if_pos (by omega), Nat.add_sub_cancel_left]
  simp [hi, BitVec.getLsbD]

theorem slice_N_FXYN : (wordFXYN op x y n).extractLsb' 0 4 = BitVec.ofFin n := by
  refine BitVec.eq_of_getLsbD_eq fun i hi => ?_
  rw [BitVec.getLsbD_extractLsb', getLsbD_wordFXYN, if_pos (by omega)]
  simp [hi, BitVec.getLsbD]

end Sys2Proof
end

