-- ==== Sys2Proof/Laws/Memory.lean ====
section
/-! SUPPORT. Memory: read after write, and the canonical form that every memory operation keeps. -/

namespace Sys2Proof.Machine.Memory

variable (font : Vector Byte 80)

/-! ### Reading after erasing, inserting, writing -/

theorem lookup_erase_self (m : Memory) (a : Nat) : lookup (erase m a) a = none := by
  induction m with
  | nil => rfl
  | cons c m ih =>
    by_cases h : c.1 = a
    · simpa [erase, h] using ih
    · simpa [erase, h, lookup] using ih

theorem lookup_erase_ne (m : Memory) {a b : Nat} (h : b ≠ a) : lookup (erase m a) b = lookup m b := by
  induction m with
  | nil => rfl
  | cons c m ih =>
    by_cases hc : c.1 = a
    · have : c.1 ≠ b := fun h' => h (h'.symm.trans hc)
      simpa [erase, hc, lookup, this, Ne.symm h] using ih
    · by_cases hb : c.1 = b
      · simp [erase, lookup, hb, h]
      · simpa [erase, hc, lookup, hb] using ih

theorem lookup_insert_self {m : Memory} {a : Nat} {b : Byte} (h : lookup m a = none) :
    lookup (insert a b m) a = some b := by
  induction m with
  | nil => simp [insert, lookup]
  | cons c m ih =>
    have hc : c.1 ≠ a := fun hc => by simp [lookup, hc] at h
    have hm : lookup m a = none := by simpa [lookup, hc] using h
    by_cases hlt : a < c.1
    · simp [insert, hlt, lookup]
    · simpa [insert, hlt, lookup, hc] using ih hm

theorem lookup_insert_ne (m : Memory) {a k : Nat} (b : Byte) (h : k ≠ a) :
    lookup (insert a b m) k = lookup m k := by
  induction m with
  | nil => simp [insert, lookup, Ne.symm h]
  | cons c m ih =>
    by_cases hlt : a < c.1
    · simp [insert, hlt, lookup, Ne.symm h]
    · by_cases hc : c.1 = k
      · subst hc
        simp [insert, hlt, lookup]
      · simpa [insert, hlt, lookup, hc] using ih

/-- A read after a write to the same address gives the byte written (R42). -/
@[simp] theorem read_write_self (m : Memory) (a : Nat) (b : Byte) : read font (write font m a b) a = b := by
  unfold read write
  split
  · rename_i h
    simp [lookup_erase_self, h]
  · simp [lookup_insert_self (lookup_erase_self m a)]

/-- A write changes exactly one byte (R38). -/
theorem read_write_ne (m : Memory) {a k : Nat} (b : Byte) (h : k ≠ a) :
    read font (write font m a b) k = read font m k := by
  unfold read write
  split
  · rw [lookup_erase_ne m h]
  · rw [lookup_insert_ne _ b h, lookup_erase_ne m h]

/-- A block write leaves every address outside the block alone. -/
theorem read_writeBytes_outside (bs : List Byte) : ∀ (m : Memory) (a k : Nat),
    (k < a ∨ a + bs.length ≤ k) → read font (writeBytes font m a bs) k = read font m k := by
  induction bs with
  | nil => intro m a k _; rfl
  | cons b bs ih =>
    intro m a k h
    rw [List.length_cons] at h
    rw [writeBytes, ih _ _ _ (by omega), read_write_ne _ _ _ (by omega)]

/-- A block write puts byte `j` at the `j`th address of the block. -/
theorem read_writeBytes_inside (bs : List Byte) : ∀ (m : Memory) (a j : Nat) (h : j < bs.length),
    read font (writeBytes font m a bs) (a + j) = bs[j] := by
  induction bs with
  | nil => intro m a j h; exact absurd h (Nat.not_lt_zero j)
  | cons b bs ih =>
    intro m a j h
    cases j with
    | zero =>
      rw [writeBytes, Nat.add_zero, read_writeBytes_outside _ _ _ _ _ (by omega)]
      simp
    | succ j =>
      have := ih (write font m a b) (a + 1) j (by simpa using h)
      rw [writeBytes, show a + (j + 1) = a + 1 + j by omega, this]
      rfl

/-! ### The canonical form -/

theorem mem_insert {c : Host.Cell} {m : Memory} {a : Nat} {b : Byte} (h : c ∈ insert a b m) : c = (a, b) ∨ c ∈ m := by
  induction m with
  | nil => simpa [insert] using h
  | cons d m ih =>
    by_cases hlt : a < d.1
    · simpa [insert, hlt] using h
    · rcases List.mem_cons.1 (by simpa [insert, hlt] using h) with h | h
      · exact .inr (by simp [h])
      · exact (ih h).imp_right (List.mem_cons_of_mem d)

theorem wf_erase {m : Memory} (h : wf font m) (a : Nat) : wf font (erase m a) :=
  ⟨h.1.filter _, fun c hc => h.2 c (List.mem_filter.1 hc).1⟩

theorem not_listed_erase (m : Memory) (a : Nat) : ∀ c ∈ erase m a, c.1 ≠ a :=
  fun c hc => by simpa [erase] using (List.mem_filter.1 hc).2

theorem wf_insert {m : Memory} (h : wf font m) {a : Nat} {b : Byte} (ha : a < 4096) (hb : b ≠ unlisted font a)
    (hm : ∀ c ∈ m, c.1 ≠ a) : wf font (insert a b m) := by
  refine ⟨?_, fun c hc => ?_⟩
  · obtain ⟨hp, -⟩ := h
    induction m with
    | nil => simp [insert]
    | cons d m ih =>
      obtain ⟨hd, hp⟩ := List.pairwise_cons.1 hp
      by_cases hlt : a < d.1
      · simp only [insert, hlt, if_true]
        refine List.pairwise_cons.2 ⟨fun c hc => ?_, List.pairwise_cons.2 ⟨hd, hp⟩⟩
        rcases List.mem_cons.1 hc with rfl | hc
        · exact hlt
        · exact hlt.trans (hd c hc)
      · simp only [insert, hlt, if_false]
        refine List.pairwise_cons.2 ⟨fun c hc => ?_, ih (fun c hc => hm c (by simp [hc])) hp⟩
        rcases mem_insert hc with rfl | hc
        · have := hm d (by simp)
          simp only [not_lt] at hlt
          omega
        · exact hd c hc
  · rcases mem_insert hc with rfl | hc
    · exact ⟨ha, hb⟩
    · exact h.2 c hc

/-- A write inside the address space keeps the canonical form. -/
theorem wf_write {m : Memory} (h : wf font m) {a : Nat} (b : Byte) (ha : a < 4096) : wf font (write font m a b) := by
  unfold write
  split
  · exact wf_erase font h a
  · exact wf_insert font (wf_erase font h a) ha ‹_› (not_listed_erase m a)

/-- A block write inside the address space keeps the canonical form. -/
theorem wf_writeBytes (bs : List Byte) : ∀ {m : Memory} {a : Nat}, wf font m → a + bs.length ≤ 4096 →
    wf font (writeBytes font m a bs) := by
  induction bs with
  | nil => intro m a h _; exact h
  | cons b bs ih =>
    intro m a h ha
    rw [List.length_cons] at ha
    exact ih (wf_write font h b (by omega)) (by omega)

theorem wf_nil : wf font [] := ⟨List.Pairwise.nil, by simp⟩

theorem lookup_eq_none {m : Memory} {a : Nat} (h : ∀ c ∈ m, a < c.1) : lookup m a = none := by
  induction m with
  | nil => rfl
  | cons c m ih =>
    have hc : c.1 ≠ a := by have := h c (by simp); omega
    simpa [lookup, hc] using ih fun d hd => h d (by simp [hd])

/-- Equal memories are equal data: two lists in canonical form that read alike are the same list. -/
theorem ext_of_wf : ∀ {m n : Memory}, wf font m → wf font n → (∀ a, read font m a = read font n a) → m = n := by
  intro m
  induction m with
  | nil =>
    intro n _ hn h
    cases n with
    | nil => rfl
    | cons d n =>
      have := h d.1
      simp only [read, lookup, if_true, Option.getD_some, Option.getD_none] at this
      exact absurd this.symm (hn.2 d (by simp)).2
  | cons c m ih =>
    intro n hm hn h
    obtain ⟨hcm, hpm⟩ := List.pairwise_cons.1 hm.1
    cases n with
    | nil =>
      have := h c.1
      simp only [read, lookup, if_true, Option.getD_some, Option.getD_none] at this
      exact absurd this (hm.2 c (by simp)).2
    | cons d n =>
      obtain ⟨hdn, hpn⟩ := List.pairwise_cons.1 hn.1
      have hcd : c.1 = d.1 := by
        rcases Nat.lt_trichotomy c.1 d.1 with hlt | heq | hgt
        · have hr := h c.1
          have hn' : lookup (d :: n) c.1 = none := lookup_eq_none fun e he => by
            rcases List.mem_cons.1 he with rfl | he
            · exact hlt
            · exact hlt.trans (hdn e he)
          rw [read, read, hn', Option.getD_none] at hr
          simp only [lookup, if_true, Option.getD_some] at hr
          exact absurd hr (hm.2 c (by simp)).2
        · exact heq
        · have hr := h d.1
          have hm' : lookup (c :: m) d.1 = none := lookup_eq_none fun e he => by
            rcases List.mem_cons.1 he with rfl | he
            · exact hgt
            · exact hgt.trans (hcm e he)
          rw [read, hm', Option.getD_none, read] at hr
          simp only [lookup, if_true, Option.getD_some] at hr
          exact absurd hr.symm (hn.2 d (by simp)).2
      have hval : c.2 = d.2 := by
        have hr := h c.1
        simpa [read, lookup, hcd] using hr
      have htail : m = n := by
        refine ih ⟨hpm, fun e he => hm.2 e (by simp [he])⟩ ⟨hpn, fun e he => hn.2 e (by simp [he])⟩ fun a => ?_
        by_cases ha : a = c.1
        · have h1 : lookup m a = none := lookup_eq_none fun e he => ha ▸ hcm e he
          have h2 : lookup n a = none := lookup_eq_none fun e he => (ha.trans hcd) ▸ hdn e he
          simp [read, h1, h2]
        · have hr := h a
          simpa [read, lookup, Ne.symm ha, show d.1 ≠ a from hcd ▸ Ne.symm ha] using hr
      rw [htail, show c = d from Prod.ext hcd hval]

end Sys2Proof.Machine.Memory
end

