-- ==== Sys2Proof/Laws/State.lean ====
section
/-! SUPPORT. One lemma per field per named update of State: what the update leaves there. Later proofs rewrite with these and never unfold an update. -/

namespace Sys2Proof.Machine

variable (s : State)

/-! ### setReg -/

@[simp] theorem setReg_v (x : RegIdx) (b : Byte) : (s.setReg x b).v = s.v.set x.val b := rfl
@[simp] theorem setReg_idx (x : RegIdx) (b : Byte) : (s.setReg x b).idx = s.idx := rfl
@[simp] theorem setReg_pc (x : RegIdx) (b : Byte) : (s.setReg x b).pc = s.pc := rfl
@[simp] theorem setReg_sp (x : RegIdx) (b : Byte) : (s.setReg x b).sp = s.sp := rfl
@[simp] theorem setReg_stack (x : RegIdx) (b : Byte) : (s.setReg x b).stack = s.stack := rfl
@[simp] theorem setReg_mem (x : RegIdx) (b : Byte) : (s.setReg x b).mem = s.mem := rfl
@[simp] theorem setReg_fb (x : RegIdx) (b : Byte) : (s.setReg x b).fb = s.fb := rfl
@[simp] theorem setReg_dt (x : RegIdx) (b : Byte) : (s.setReg x b).dt = s.dt := rfl
@[simp] theorem setReg_st (x : RegIdx) (b : Byte) : (s.setReg x b).st = s.st := rfl
@[simp] theorem setReg_key (x : RegIdx) (b : Byte) : (s.setReg x b).key = s.key := rfl
@[simp] theorem setReg_status (x : RegIdx) (b : Byte) : (s.setReg x b).status = s.status := rfl
@[simp] theorem setReg_fcause (x : RegIdx) (b : Byte) : (s.setReg x b).fcause = s.fcause := rfl
@[simp] theorem setReg_fpc (x : RegIdx) (b : Byte) : (s.setReg x b).fpc = s.fpc := rfl
@[simp] theorem setReg_finfo (x : RegIdx) (b : Byte) : (s.setReg x b).finfo = s.finfo := rfl
@[simp] theorem setReg_font (x : RegIdx) (b : Byte) : (s.setReg x b).font = s.font := rfl
@[simp] theorem setReg_rnd (x : RegIdx) (b : Byte) : (s.setReg x b).rnd = s.rnd := rfl
@[simp] theorem setReg_draws (x : RegIdx) (b : Byte) : (s.setReg x b).draws = s.draws := rfl

/-! ### advance -/

@[simp] theorem advance_v : (s.advance).v = s.v := rfl
@[simp] theorem advance_idx : (s.advance).idx = s.idx := rfl
@[simp] theorem advance_pc : (s.advance).pc = s.pc + 2 := rfl
@[simp] theorem advance_sp : (s.advance).sp = s.sp := rfl
@[simp] theorem advance_stack : (s.advance).stack = s.stack := rfl
@[simp] theorem advance_mem : (s.advance).mem = s.mem := rfl
@[simp] theorem advance_fb : (s.advance).fb = s.fb := rfl
@[simp] theorem advance_dt : (s.advance).dt = s.dt := rfl
@[simp] theorem advance_st : (s.advance).st = s.st := rfl
@[simp] theorem advance_key : (s.advance).key = s.key := rfl
@[simp] theorem advance_status : (s.advance).status = s.status := rfl
@[simp] theorem advance_fcause : (s.advance).fcause = s.fcause := rfl
@[simp] theorem advance_fpc : (s.advance).fpc = s.fpc := rfl
@[simp] theorem advance_finfo : (s.advance).finfo = s.finfo := rfl
@[simp] theorem advance_font : (s.advance).font = s.font := rfl
@[simp] theorem advance_rnd : (s.advance).rnd = s.rnd := rfl
@[simp] theorem advance_draws : (s.advance).draws = s.draws := rfl

/-! ### rewind -/

@[simp] theorem rewind_v : (s.rewind).v = s.v := rfl
@[simp] theorem rewind_idx : (s.rewind).idx = s.idx := rfl
@[simp] theorem rewind_pc : (s.rewind).pc = s.pc - 2 := rfl
@[simp] theorem rewind_sp : (s.rewind).sp = s.sp := rfl
@[simp] theorem rewind_stack : (s.rewind).stack = s.stack := rfl
@[simp] theorem rewind_mem : (s.rewind).mem = s.mem := rfl
@[simp] theorem rewind_fb : (s.rewind).fb = s.fb := rfl
@[simp] theorem rewind_dt : (s.rewind).dt = s.dt := rfl
@[simp] theorem rewind_st : (s.rewind).st = s.st := rfl
@[simp] theorem rewind_key : (s.rewind).key = s.key := rfl
@[simp] theorem rewind_status : (s.rewind).status = s.status := rfl
@[simp] theorem rewind_fcause : (s.rewind).fcause = s.fcause := rfl
@[simp] theorem rewind_fpc : (s.rewind).fpc = s.fpc := rfl
@[simp] theorem rewind_finfo : (s.rewind).finfo = s.finfo := rfl
@[simp] theorem rewind_font : (s.rewind).font = s.font := rfl
@[simp] theorem rewind_rnd : (s.rewind).rnd = s.rnd := rfl
@[simp] theorem rewind_draws : (s.rewind).draws = s.draws := rfl

/-! ### jump -/

@[simp] theorem jump_v (w : Word) : (s.jump w).v = s.v := rfl
@[simp] theorem jump_idx (w : Word) : (s.jump w).idx = s.idx := rfl
@[simp] theorem jump_pc (w : Word) : (s.jump w).pc = w := rfl
@[simp] theorem jump_sp (w : Word) : (s.jump w).sp = s.sp := rfl
@[simp] theorem jump_stack (w : Word) : (s.jump w).stack = s.stack := rfl
@[simp] theorem jump_mem (w : Word) : (s.jump w).mem = s.mem := rfl
@[simp] theorem jump_fb (w : Word) : (s.jump w).fb = s.fb := rfl
@[simp] theorem jump_dt (w : Word) : (s.jump w).dt = s.dt := rfl
@[simp] theorem jump_st (w : Word) : (s.jump w).st = s.st := rfl
@[simp] theorem jump_key (w : Word) : (s.jump w).key = s.key := rfl
@[simp] theorem jump_status (w : Word) : (s.jump w).status = s.status := rfl
@[simp] theorem jump_fcause (w : Word) : (s.jump w).fcause = s.fcause := rfl
@[simp] theorem jump_fpc (w : Word) : (s.jump w).fpc = s.fpc := rfl
@[simp] theorem jump_finfo (w : Word) : (s.jump w).finfo = s.finfo := rfl
@[simp] theorem jump_font (w : Word) : (s.jump w).font = s.font := rfl
@[simp] theorem jump_rnd (w : Word) : (s.jump w).rnd = s.rnd := rfl
@[simp] theorem jump_draws (w : Word) : (s.jump w).draws = s.draws := rfl

/-! ### skipIf -/

@[simp] theorem skipIf_v (c : Bool) : (s.skipIf c).v = s.v := by cases c <;> rfl
@[simp] theorem skipIf_idx (c : Bool) : (s.skipIf c).idx = s.idx := by cases c <;> rfl
@[simp] theorem skipIf_pc (c : Bool) : (s.skipIf c).pc = if c then s.pc + 2 else s.pc := by cases c <;> rfl
@[simp] theorem skipIf_sp (c : Bool) : (s.skipIf c).sp = s.sp := by cases c <;> rfl
@[simp] theorem skipIf_stack (c : Bool) : (s.skipIf c).stack = s.stack := by cases c <;> rfl
@[simp] theorem skipIf_mem (c : Bool) : (s.skipIf c).mem = s.mem := by cases c <;> rfl
@[simp] theorem skipIf_fb (c : Bool) : (s.skipIf c).fb = s.fb := by cases c <;> rfl
@[simp] theorem skipIf_dt (c : Bool) : (s.skipIf c).dt = s.dt := by cases c <;> rfl
@[simp] theorem skipIf_st (c : Bool) : (s.skipIf c).st = s.st := by cases c <;> rfl
@[simp] theorem skipIf_key (c : Bool) : (s.skipIf c).key = s.key := by cases c <;> rfl
@[simp] theorem skipIf_status (c : Bool) : (s.skipIf c).status = s.status := by cases c <;> rfl
@[simp] theorem skipIf_fcause (c : Bool) : (s.skipIf c).fcause = s.fcause := by cases c <;> rfl
@[simp] theorem skipIf_fpc (c : Bool) : (s.skipIf c).fpc = s.fpc := by cases c <;> rfl
@[simp] theorem skipIf_finfo (c : Bool) : (s.skipIf c).finfo = s.finfo := by cases c <;> rfl
@[simp] theorem skipIf_font (c : Bool) : (s.skipIf c).font = s.font := by cases c <;> rfl
@[simp] theorem skipIf_rnd (c : Bool) : (s.skipIf c).rnd = s.rnd := by cases c <;> rfl
@[simp] theorem skipIf_draws (c : Bool) : (s.skipIf c).draws = s.draws := by cases c <;> rfl

/-! ### writeBytes -/

@[simp] theorem writeBytes_v (a : Nat) (bs : List Byte) : (s.writeBytes a bs).v = s.v := rfl
@[simp] theorem writeBytes_idx (a : Nat) (bs : List Byte) : (s.writeBytes a bs).idx = s.idx := rfl
@[simp] theorem writeBytes_pc (a : Nat) (bs : List Byte) : (s.writeBytes a bs).pc = s.pc := rfl
@[simp] theorem writeBytes_sp (a : Nat) (bs : List Byte) : (s.writeBytes a bs).sp = s.sp := rfl
@[simp] theorem writeBytes_stack (a : Nat) (bs : List Byte) : (s.writeBytes a bs).stack = s.stack := rfl
@[simp] theorem writeBytes_mem (a : Nat) (bs : List Byte) : (s.writeBytes a bs).mem = Memory.writeBytes s.font s.mem a bs := rfl
@[simp] theorem writeBytes_fb (a : Nat) (bs : List Byte) : (s.writeBytes a bs).fb = s.fb := rfl
@[simp] theorem writeBytes_dt (a : Nat) (bs : List Byte) : (s.writeBytes a bs).dt = s.dt := rfl
@[simp] theorem writeBytes_st (a : Nat) (bs : List Byte) : (s.writeBytes a bs).st = s.st := rfl
@[simp] theorem writeBytes_key (a : Nat) (bs : List Byte) : (s.writeBytes a bs).key = s.key := rfl
@[simp] theorem writeBytes_status (a : Nat) (bs : List Byte) : (s.writeBytes a bs).status = s.status := rfl
@[simp] theorem writeBytes_fcause (a : Nat) (bs : List Byte) : (s.writeBytes a bs).fcause = s.fcause := rfl
@[simp] theorem writeBytes_fpc (a : Nat) (bs : List Byte) : (s.writeBytes a bs).fpc = s.fpc := rfl
@[simp] theorem writeBytes_finfo (a : Nat) (bs : List Byte) : (s.writeBytes a bs).finfo = s.finfo := rfl
@[simp] theorem writeBytes_font (a : Nat) (bs : List Byte) : (s.writeBytes a bs).font = s.font := rfl
@[simp] theorem writeBytes_rnd (a : Nat) (bs : List Byte) : (s.writeBytes a bs).rnd = s.rnd := rfl
@[simp] theorem writeBytes_draws (a : Nat) (bs : List Byte) : (s.writeBytes a bs).draws = s.draws := rfl

/-! ### raiseAt -/

@[simp] theorem raiseAt_v (w : Word) (c : FaultCause) (n : Info) : (s.raiseAt w c n).v = s.v := rfl
@[simp] theorem raiseAt_idx (w : Word) (c : FaultCause) (n : Info) : (s.raiseAt w c n).idx = s.idx := rfl
@[simp] theorem raiseAt_pc (w : Word) (c : FaultCause) (n : Info) : (s.raiseAt w c n).pc = w := rfl
@[simp] theorem raiseAt_sp (w : Word) (c : FaultCause) (n : Info) : (s.raiseAt w c n).sp = s.sp := rfl
@[simp] theorem raiseAt_stack (w : Word) (c : FaultCause) (n : Info) : (s.raiseAt w c n).stack = s.stack := rfl
@[simp] theorem raiseAt_mem (w : Word) (c : FaultCause) (n : Info) : (s.raiseAt w c n).mem = s.mem := rfl
@[simp] theorem raiseAt_fb (w : Word) (c : FaultCause) (n : Info) : (s.raiseAt w c n).fb = s.fb := rfl
@[simp] theorem raiseAt_dt (w : Word) (c : FaultCause) (n : Info) : (s.raiseAt w c n).dt = s.dt := rfl
@[simp] theorem raiseAt_st (w : Word) (c : FaultCause) (n : Info) : (s.raiseAt w c n).st = s.st := rfl
@[simp] theorem raiseAt_key (w : Word) (c : FaultCause) (n : Info) : (s.raiseAt w c n).key = s.key := rfl
@[simp] theorem raiseAt_status (w : Word) (c : FaultCause) (n : Info) : (s.raiseAt w c n).status = .faulted := rfl
@[simp] theorem raiseAt_fcause (w : Word) (c : FaultCause) (n : Info) : (s.raiseAt w c n).fcause = c := rfl
@[simp] theorem raiseAt_fpc (w : Word) (c : FaultCause) (n : Info) : (s.raiseAt w c n).fpc = w := rfl
@[simp] theorem raiseAt_finfo (w : Word) (c : FaultCause) (n : Info) : (s.raiseAt w c n).finfo = n := rfl
@[simp] theorem raiseAt_font (w : Word) (c : FaultCause) (n : Info) : (s.raiseAt w c n).font = s.font := rfl
@[simp] theorem raiseAt_rnd (w : Word) (c : FaultCause) (n : Info) : (s.raiseAt w c n).rnd = s.rnd := rfl
@[simp] theorem raiseAt_draws (w : Word) (c : FaultCause) (n : Info) : (s.raiseAt w c n).draws = s.draws := rfl

/-! ### renewRnd -/

@[simp] theorem renewRnd_v : (s.renewRnd).v = s.v := rfl
@[simp] theorem renewRnd_idx : (s.renewRnd).idx = s.idx := rfl
@[simp] theorem renewRnd_pc : (s.renewRnd).pc = s.pc := rfl
@[simp] theorem renewRnd_sp : (s.renewRnd).sp = s.sp := rfl
@[simp] theorem renewRnd_stack : (s.renewRnd).stack = s.stack := rfl
@[simp] theorem renewRnd_mem : (s.renewRnd).mem = s.mem := rfl
@[simp] theorem renewRnd_fb : (s.renewRnd).fb = s.fb := rfl
@[simp] theorem renewRnd_dt : (s.renewRnd).dt = s.dt := rfl
@[simp] theorem renewRnd_st : (s.renewRnd).st = s.st := rfl
@[simp] theorem renewRnd_key : (s.renewRnd).key = s.key := rfl
@[simp] theorem renewRnd_status : (s.renewRnd).status = s.status := rfl
@[simp] theorem renewRnd_fcause : (s.renewRnd).fcause = s.fcause := rfl
@[simp] theorem renewRnd_fpc : (s.renewRnd).fpc = s.fpc := rfl
@[simp] theorem renewRnd_finfo : (s.renewRnd).finfo = s.finfo := rfl
@[simp] theorem renewRnd_font : (s.renewRnd).font = s.font := rfl
@[simp] theorem renewRnd_rnd : (s.renewRnd).rnd = Config.rndByte s.draws := rfl
@[simp] theorem renewRnd_draws : (s.renewRnd).draws = s.draws + 1 := rfl

/-! ### setRegs -/

@[simp] theorem setRegs_v (bs : List Byte) : (s.setRegs bs).v = Vector.ofFn fun k => (bs[k.val]?).getD (s.reg k) := rfl
@[simp] theorem setRegs_idx (bs : List Byte) : (s.setRegs bs).idx = s.idx := rfl
@[simp] theorem setRegs_pc (bs : List Byte) : (s.setRegs bs).pc = s.pc := rfl
@[simp] theorem setRegs_sp (bs : List Byte) : (s.setRegs bs).sp = s.sp := rfl
@[simp] theorem setRegs_stack (bs : List Byte) : (s.setRegs bs).stack = s.stack := rfl
@[simp] theorem setRegs_mem (bs : List Byte) : (s.setRegs bs).mem = s.mem := rfl
@[simp] theorem setRegs_fb (bs : List Byte) : (s.setRegs bs).fb = s.fb := rfl
@[simp] theorem setRegs_dt (bs : List Byte) : (s.setRegs bs).dt = s.dt := rfl
@[simp] theorem setRegs_st (bs : List Byte) : (s.setRegs bs).st = s.st := rfl
@[simp] theorem setRegs_key (bs : List Byte) : (s.setRegs bs).key = s.key := rfl
@[simp] theorem setRegs_status (bs : List Byte) : (s.setRegs bs).status = s.status := rfl
@[simp] theorem setRegs_fcause (bs : List Byte) : (s.setRegs bs).fcause = s.fcause := rfl
@[simp] theorem setRegs_fpc (bs : List Byte) : (s.setRegs bs).fpc = s.fpc := rfl
@[simp] theorem setRegs_finfo (bs : List Byte) : (s.setRegs bs).finfo = s.finfo := rfl
@[simp] theorem setRegs_font (bs : List Byte) : (s.setRegs bs).font = s.font := rfl
@[simp] theorem setRegs_rnd (bs : List Byte) : (s.setRegs bs).rnd = s.rnd := rfl
@[simp] theorem setRegs_draws (bs : List Byte) : (s.setRegs bs).draws = s.draws := rfl

/-! ### setWithFlag -/

@[simp] theorem setWithFlag_v (x : RegIdx) (p : Byte × Bool) : (s.setWithFlag x p).v = (s.v.set x.val p.1).set 15 (flagByte p.2) := rfl
@[simp] theorem setWithFlag_idx (x : RegIdx) (p : Byte × Bool) : (s.setWithFlag x p).idx = s.idx := rfl
@[simp] theorem setWithFlag_pc (x : RegIdx) (p : Byte × Bool) : (s.setWithFlag x p).pc = s.pc := rfl
@[simp] theorem setWithFlag_sp (x : RegIdx) (p : Byte × Bool) : (s.setWithFlag x p).sp = s.sp := rfl
@[simp] theorem setWithFlag_stack (x : RegIdx) (p : Byte × Bool) : (s.setWithFlag x p).stack = s.stack := rfl
@[simp] theorem setWithFlag_mem (x : RegIdx) (p : Byte × Bool) : (s.setWithFlag x p).mem = s.mem := rfl
@[simp] theorem setWithFlag_fb (x : RegIdx) (p : Byte × Bool) : (s.setWithFlag x p).fb = s.fb := rfl
@[simp] theorem setWithFlag_dt (x : RegIdx) (p : Byte × Bool) : (s.setWithFlag x p).dt = s.dt := rfl
@[simp] theorem setWithFlag_st (x : RegIdx) (p : Byte × Bool) : (s.setWithFlag x p).st = s.st := rfl
@[simp] theorem setWithFlag_key (x : RegIdx) (p : Byte × Bool) : (s.setWithFlag x p).key = s.key := rfl
@[simp] theorem setWithFlag_status (x : RegIdx) (p : Byte × Bool) : (s.setWithFlag x p).status = s.status := rfl
@[simp] theorem setWithFlag_fcause (x : RegIdx) (p : Byte × Bool) : (s.setWithFlag x p).fcause = s.fcause := rfl
@[simp] theorem setWithFlag_fpc (x : RegIdx) (p : Byte × Bool) : (s.setWithFlag x p).fpc = s.fpc := rfl
@[simp] theorem setWithFlag_finfo (x : RegIdx) (p : Byte × Bool) : (s.setWithFlag x p).finfo = s.finfo := rfl
@[simp] theorem setWithFlag_font (x : RegIdx) (p : Byte × Bool) : (s.setWithFlag x p).font = s.font := rfl
@[simp] theorem setWithFlag_rnd (x : RegIdx) (p : Byte × Bool) : (s.setWithFlag x p).rnd = s.rnd := rfl
@[simp] theorem setWithFlag_draws (x : RegIdx) (p : Byte × Bool) : (s.setWithFlag x p).draws = s.draws := rfl

/-! ### drawSprite -/

@[simp] theorem drawSprite_v (vx vy : Byte) (bs : List Byte) : (s.drawSprite vx vy bs).v = s.v.set 15 (flagByte (s.drawn vx vy bs).2) := rfl
@[simp] theorem drawSprite_idx (vx vy : Byte) (bs : List Byte) : (s.drawSprite vx vy bs).idx = s.idx := rfl
@[simp] theorem drawSprite_pc (vx vy : Byte) (bs : List Byte) : (s.drawSprite vx vy bs).pc = s.pc := rfl
@[simp] theorem drawSprite_sp (vx vy : Byte) (bs : List Byte) : (s.drawSprite vx vy bs).sp = s.sp := rfl
@[simp] theorem drawSprite_stack (vx vy : Byte) (bs : List Byte) : (s.drawSprite vx vy bs).stack = s.stack := rfl
@[simp] theorem drawSprite_mem (vx vy : Byte) (bs : List Byte) : (s.drawSprite vx vy bs).mem = s.mem := rfl
@[simp] theorem drawSprite_fb (vx vy : Byte) (bs : List Byte) : (s.drawSprite vx vy bs).fb = (s.drawn vx vy bs).1 := rfl
@[simp] theorem drawSprite_dt (vx vy : Byte) (bs : List Byte) : (s.drawSprite vx vy bs).dt = s.dt := rfl
@[simp] theorem drawSprite_st (vx vy : Byte) (bs : List Byte) : (s.drawSprite vx vy bs).st = s.st := rfl
@[simp] theorem drawSprite_key (vx vy : Byte) (bs : List Byte) : (s.drawSprite vx vy bs).key = s.key := rfl
@[simp] theorem drawSprite_status (vx vy : Byte) (bs : List Byte) : (s.drawSprite vx vy bs).status = s.status := rfl
@[simp] theorem drawSprite_fcause (vx vy : Byte) (bs : List Byte) : (s.drawSprite vx vy bs).fcause = s.fcause := rfl
@[simp] theorem drawSprite_fpc (vx vy : Byte) (bs : List Byte) : (s.drawSprite vx vy bs).fpc = s.fpc := rfl
@[simp] theorem drawSprite_finfo (vx vy : Byte) (bs : List Byte) : (s.drawSprite vx vy bs).finfo = s.finfo := rfl
@[simp] theorem drawSprite_font (vx vy : Byte) (bs : List Byte) : (s.drawSprite vx vy bs).font = s.font := rfl
@[simp] theorem drawSprite_rnd (vx vy : Byte) (bs : List Byte) : (s.drawSprite vx vy bs).rnd = s.rnd := rfl
@[simp] theorem drawSprite_draws (vx vy : Byte) (bs : List Byte) : (s.drawSprite vx vy bs).draws = s.draws := rfl

/-! ### withRnd -/

@[simp] theorem withRnd_v (r : Byte) : (s.withRnd r).v = s.v := rfl
@[simp] theorem withRnd_idx (r : Byte) : (s.withRnd r).idx = s.idx := rfl
@[simp] theorem withRnd_pc (r : Byte) : (s.withRnd r).pc = s.pc := rfl
@[simp] theorem withRnd_sp (r : Byte) : (s.withRnd r).sp = s.sp := rfl
@[simp] theorem withRnd_stack (r : Byte) : (s.withRnd r).stack = s.stack := rfl
@[simp] theorem withRnd_mem (r : Byte) : (s.withRnd r).mem = s.mem := rfl
@[simp] theorem withRnd_fb (r : Byte) : (s.withRnd r).fb = s.fb := rfl
@[simp] theorem withRnd_dt (r : Byte) : (s.withRnd r).dt = s.dt := rfl
@[simp] theorem withRnd_st (r : Byte) : (s.withRnd r).st = s.st := rfl
@[simp] theorem withRnd_key (r : Byte) : (s.withRnd r).key = s.key := rfl
@[simp] theorem withRnd_status (r : Byte) : (s.withRnd r).status = s.status := rfl
@[simp] theorem withRnd_fcause (r : Byte) : (s.withRnd r).fcause = s.fcause := rfl
@[simp] theorem withRnd_fpc (r : Byte) : (s.withRnd r).fpc = s.fpc := rfl
@[simp] theorem withRnd_finfo (r : Byte) : (s.withRnd r).finfo = s.finfo := rfl
@[simp] theorem withRnd_font (r : Byte) : (s.withRnd r).font = s.font := rfl
@[simp] theorem withRnd_rnd (r : Byte) : (s.withRnd r).rnd = r := rfl
@[simp] theorem withRnd_draws (r : Byte) : (s.withRnd r).draws = s.draws := rfl

/-! ### opTick -/

@[simp] theorem opTick_v : (s.opTick).v = s.v := rfl
@[simp] theorem opTick_idx : (s.opTick).idx = s.idx := rfl
@[simp] theorem opTick_pc : (s.opTick).pc = s.pc := rfl
@[simp] theorem opTick_sp : (s.opTick).sp = s.sp := rfl
@[simp] theorem opTick_stack : (s.opTick).stack = s.stack := rfl
@[simp] theorem opTick_mem : (s.opTick).mem = s.mem := rfl
@[simp] theorem opTick_fb : (s.opTick).fb = s.fb := rfl
@[simp] theorem opTick_dt : (s.opTick).dt = tickDown s.dt := rfl
@[simp] theorem opTick_st : (s.opTick).st = tickDown s.st := rfl
@[simp] theorem opTick_key : (s.opTick).key = s.key := rfl
@[simp] theorem opTick_status : (s.opTick).status = s.status := rfl
@[simp] theorem opTick_fcause : (s.opTick).fcause = s.fcause := rfl
@[simp] theorem opTick_fpc : (s.opTick).fpc = s.fpc := rfl
@[simp] theorem opTick_finfo : (s.opTick).finfo = s.finfo := rfl
@[simp] theorem opTick_font : (s.opTick).font = s.font := rfl
@[simp] theorem opTick_rnd : (s.opTick).rnd = s.rnd := rfl
@[simp] theorem opTick_draws : (s.opTick).draws = s.draws := rfl

/-! ### opKey -/

@[simp] theorem opKey_v (k : Fin 16) (b : Bool) : (s.opKey k b).v = s.v := rfl
@[simp] theorem opKey_idx (k : Fin 16) (b : Bool) : (s.opKey k b).idx = s.idx := rfl
@[simp] theorem opKey_pc (k : Fin 16) (b : Bool) : (s.opKey k b).pc = s.pc := rfl
@[simp] theorem opKey_sp (k : Fin 16) (b : Bool) : (s.opKey k b).sp = s.sp := rfl
@[simp] theorem opKey_stack (k : Fin 16) (b : Bool) : (s.opKey k b).stack = s.stack := rfl
@[simp] theorem opKey_mem (k : Fin 16) (b : Bool) : (s.opKey k b).mem = s.mem := rfl
@[simp] theorem opKey_fb (k : Fin 16) (b : Bool) : (s.opKey k b).fb = s.fb := rfl
@[simp] theorem opKey_dt (k : Fin 16) (b : Bool) : (s.opKey k b).dt = s.dt := rfl
@[simp] theorem opKey_st (k : Fin 16) (b : Bool) : (s.opKey k b).st = s.st := rfl
@[simp] theorem opKey_key (k : Fin 16) (b : Bool) : (s.opKey k b).key = s.key.set k.val b := rfl
@[simp] theorem opKey_status (k : Fin 16) (b : Bool) : (s.opKey k b).status = s.status := rfl
@[simp] theorem opKey_fcause (k : Fin 16) (b : Bool) : (s.opKey k b).fcause = s.fcause := rfl
@[simp] theorem opKey_fpc (k : Fin 16) (b : Bool) : (s.opKey k b).fpc = s.fpc := rfl
@[simp] theorem opKey_finfo (k : Fin 16) (b : Bool) : (s.opKey k b).finfo = s.finfo := rfl
@[simp] theorem opKey_font (k : Fin 16) (b : Bool) : (s.opKey k b).font = s.font := rfl
@[simp] theorem opKey_rnd (k : Fin 16) (b : Bool) : (s.opKey k b).rnd = s.rnd := rfl
@[simp] theorem opKey_draws (k : Fin 16) (b : Bool) : (s.opKey k b).draws = s.draws := rfl

end Sys2Proof.Machine
end

