-- ==== Sys2Proof/Laws/Ops.lean ====
section
/-! SUPPORT. The shared operations: for each, one lemma that says everything it can do. -/

namespace Sys2Proof.Machine

variable (s : State)

/-! ### Reading a register, a byte -/

theorem reg_congr {s t : State} (h : t.v = s.v) (x : RegIdx) : t.reg x = s.reg x := by simp [State.reg, h]

theorem readByte_congr {s t : State} (hm : t.mem = s.mem) (hf : t.font = s.font) (a : Nat) :
    t.readByte a = s.readByte a := by simp [State.readByte, hm, hf]

@[simp] theorem reg_setReg_self (x : RegIdx) (b : Byte) : (s.setReg x b).reg x = b := by
  simp [State.reg, State.setReg]

theorem reg_setReg_ne {x q : RegIdx} (b : Byte) (h : q ≠ x) : (s.setReg x b).reg q = s.reg q := by
  have : x.val ≠ q.val := fun h' => h (Fin.ext h'.symm)
  simp [State.reg, State.setReg, this]

theorem reg_setReg (x q : RegIdx) (b : Byte) : (s.setReg x b).reg q = if q = x then b else s.reg q := by
  split
  · rename_i h
    rw [h, reg_setReg_self]
  · exact reg_setReg_ne s b ‹_›

/-- The flag is written last (R81): VF is the flag, and VX the result unless it is VF. -/
theorem reg_setWithFlag (x q : RegIdx) (p : Byte × Bool) :
    (s.setWithFlag x p).reg q = if q = 15 then flagByte p.2 else if q = x then p.1 else s.reg q := by
  rw [State.setWithFlag, reg_setReg, reg_setReg]

@[simp] theorem reg_setRegs (bs : List Byte) (q : RegIdx) : (s.setRegs bs).reg q = (bs[q.val]?).getD (s.reg q) := by
  simp [State.reg, State.setRegs]

theorem readByte_writeBytes_outside (a k : Nat) (bs : List Byte) (h : k < a ∨ a + bs.length ≤ k) :
    (s.writeBytes a bs).readByte k = s.readByte k :=
  Memory.read_writeBytes_outside s.font bs s.mem a k h

theorem readByte_writeBytes_inside (a j : Nat) (bs : List Byte) (h : j < bs.length) :
    (s.writeBytes a bs).readByte (a + j) = bs[j] :=
  Memory.read_writeBytes_inside s.font bs s.mem a j h

/-! ### The stack -/

/-- A push either finds the stack full, or stores at the old SP and raises SP by one (R79). -/
theorem push_cases (w : Word) : (s.sp = 16 ∧ s.push w = none) ∨
    ∃ h : s.sp.val < 16, s.push w =
      some { s with stack := s.stack.set s.sp.val w, sp := ⟨s.sp.val + 1, by omega⟩ } := by
  by_cases h : s.sp.val < 16
  · exact .inr ⟨h, by simp [State.push, h]⟩
  · refine .inl ⟨Fin.ext ?_, by simp [State.push, h]⟩
    have := s.sp.isLt
    change s.sp.val = 16
    omega

/-- A pop either finds the stack empty, or lowers SP by one and answers the entry there (R79). -/
theorem pop_cases : (s.sp = 0 ∧ s.pop = none) ∨
    ∃ h : 1 ≤ s.sp.val, s.pop = some (s.stack[s.sp.val - 1], { s with sp := ⟨s.sp.val - 1, by omega⟩ }) := by
  by_cases h : 1 ≤ s.sp.val
  · exact .inr ⟨h, by simp [State.pop, h]⟩
  · refine .inl ⟨Fin.ext ?_, by simp [State.pop, h]⟩
    change s.sp.val = 0
    omega

/-! ### Ranges at I -/

/-- A range of `n + 1` bytes at I is in memory exactly when its last byte is (R39). -/
theorem rangeOk_succ (n : Nat) : s.rangeOk (n + 1) = decide (s.idx.toNat + n ≤ 4095) := by
  simp [State.rangeOk, State.ea]

@[simp] theorem rangeOk_zero : s.rangeOk 0 = true := by simp [State.rangeOk]

/-- A load either stays in memory and answers the bytes in ascending order, or answers nothing (R39). -/
theorem loadBytes_cases (n : Nat) :
    (s.rangeOk n = true ∧ s.loadBytes n = some ((List.range n).map fun k => s.readByte (s.idx.toNat + k))) ∨
    (s.rangeOk n = false ∧ s.loadBytes n = none) := by
  cases h : s.rangeOk n
  · exact .inr ⟨rfl, by simp [State.loadBytes, h]⟩
  · exact .inl ⟨rfl, by simp [State.loadBytes, h, State.ea]⟩

/-- A store either stays in memory and writes the bytes from I on, or writes nothing (R39). -/
theorem storeBytes_cases (bs : List Byte) :
    (s.rangeOk bs.length = true ∧ s.storeBytes bs = some (s.writeBytes s.idx.toNat bs)) ∨
    (s.rangeOk bs.length = false ∧ s.storeBytes bs = none) := by
  cases h : s.rangeOk bs.length
  · exact .inr ⟨rfl, by simp [State.storeBytes, h]⟩
  · exact .inl ⟨rfl, by simp [State.storeBytes, h, State.ea]⟩

@[simp] theorem length_regsUpTo (x : RegIdx) : (s.regsUpTo x).length = x.val + 1 := by
  simp [State.regsUpTo]

theorem getElem_regsUpTo (x : RegIdx) (k : Nat) (h : k < (s.regsUpTo x).length) :
    (s.regsUpTo x)[k] = s.reg ⟨k, by rw [length_regsUpTo] at h; omega⟩ := by
  simp [State.regsUpTo, State.reg]

@[simp] theorem length_bcdDigits (a : Byte) : (bcdDigits a).length = 3 := rfl

/-! ### Keys -/

/-- A byte names a key, whose flag is read, or is above 15 and names none (R119). -/
theorem keyAt_cases (k : Byte) : (∃ h : k.toNat < 16, s.keyAt k = some s.key[k.toNat]) ∨
    (15 < k.toNat ∧ s.keyAt k = none) := by
  by_cases h : k.toNat < 16
  · exact .inl ⟨h, by simp [State.keyAt, h]⟩
  · exact .inr ⟨by omega, by simp [State.keyAt, h]⟩

/-- No key is found exactly when none is pressed (R115). -/
theorem firstKey_eq_none : s.firstKey = none ↔ ∀ k : Fin 16, s.key[k.val] = false := by
  simp [State.firstKey]

/-- The key found is the least one pressed (R115). -/
theorem firstKey_eq_some {k : Fin 16} :
    s.firstKey = some k ↔ s.key[k.val] = true ∧ ∀ j : Fin 16, j.val < k.val → s.key[j.val] = false := by
  rw [State.firstKey, List.find?_eq_some_iff_getElem]
  refine and_congr_right fun _ => ⟨fun ⟨i, hi, hk, h⟩ j hj => ?_, fun h => ⟨k.val, by simp, by simp, fun j hj => ?_⟩⟩
  · subst hk
    simpa using h j.val (by simpa using hj)
  · simpa using h ⟨j, by omega⟩ hj

/-! ### Faults -/

/-- An instruction with a check answers its result, or takes the fault with nothing committed (R127). -/
theorem commit_cases (c : FaultCause) (n : Info) (r : Option State) :
    (∃ t, r = some t ∧ s.commit c n r = .next t) ∨ (r = none ∧ s.commit c n r = .next (s.raiseAt s.pc0 c n)) := by
  cases r
  · exact .inr ⟨rfl, rfl⟩
  · exact .inl ⟨_, rfl, rfl⟩

@[simp] theorem commit_some (c : FaultCause) (n : Info) (t : State) : s.commit c n (some t) = .next t := rfl

@[simp] theorem commit_none (c : FaultCause) (n : Info) : s.commit c n none = .next (s.raiseAt s.pc0 c n) := rfl

@[simp] theorem pc0_advance : s.advance.pc0 = s.pc := by simp [State.pc0]

/-! ### The fetch -/

/-- The fetch answers the two bytes at PC, or nothing when a byte lies past 4095 (R37). -/
theorem fetchWord_cases :
    (s.pc.toNat ≤ 4094 ∧ s.fetchWord = some (wordOfBytes (s.readByte s.pc.toNat) (s.readByte (s.pc.toNat + 1)))) ∨
    (4094 < s.pc.toNat ∧ s.fetchWord = none) := by
  by_cases h : 4094 < s.pc.toNat
  · exact .inr ⟨h, by simp [State.fetchWord, h]⟩
  · exact .inl ⟨by omega, by simp [State.fetchWord, h]⟩

end Sys2Proof.Machine
end

