-- ==== Sys2Proof/Laws/Exec.lean ====
section
/-! SUPPORT. What each instruction can do, said once: it takes its one fault, or has its effect. Claims over all instructions cite `exec_cases` and never unfold a meaning. -/

namespace Sys2Proof.Machine

/-- The fault an instruction can take from `s`: its cause, its condition, its FINFO (spec/60_exceptions.md R124). -/
inductive CanFault (s : State) : Instr → FaultCause → Info → Prop where
  | call (nnn : Addr12) : s.sp = 16 → CanFault s (.call nnn) .stackOverflow 16
  | ret : s.sp = 0 → CanFault s .ret .stackUnderflow 0
  | drw (x y : RegIdx) (n : RowCount) : s.rangeOk n.val = false → CanFault s (.drw x y n) .dataReadOob s.firstBad
  | ldRegs (x : RegIdx) : s.rangeOk (x.val + 1) = false → CanFault s (.ldRegs x) .dataReadOob s.firstBad
  | ldB (x : RegIdx) : s.rangeOk 3 = false → CanFault s (.ldB x) .dataWriteOob s.firstBad
  | stRegs (x : RegIdx) : s.rangeOk (x.val + 1) = false → CanFault s (.stRegs x) .dataWriteOob s.firstBad
  | skp (x : RegIdx) : 15 < (s.reg x).toNat → CanFault s (.skp x) .keyIndexOob ((s.reg x).setWidth 17)
  | sknp (x : RegIdx) : 15 < (s.reg x).toNat → CanFault s (.sknp x) .keyIndexOob ((s.reg x).setWidth 17)

/-- The shape of an instruction's effect when it takes no fault: which update leads from `s` to `t`. -/
def Effect (s t : State) : Instr → Prop
  | .cls => t = { s with fb := Screen.blank }
  | .ret => ∃ h : 1 ≤ s.sp.val, t = ({ s with sp := ⟨s.sp.val - 1, by omega⟩ } : State).jump s.stack[s.sp.val - 1]
  | .jp nnn => t = s.jump (zextAddr nnn)
  | .call nnn => ∃ h : s.sp.val < 16,
      t = ({ s with stack := s.stack.set s.sp.val s.pc, sp := ⟨s.sp.val + 1, by omega⟩ } : State).jump (zextAddr nnn)
  | .jpV0 nnn => t = s.jump (zextReg (s.reg 0) + zextAddr nnn)
  | .seImm _ _ | .sneImm _ _ | .seReg _ _ | .sneReg _ _ => ∃ c, t = s.skipIf c
  | .skp x | .sknp x => (s.reg x).toNat < 16 ∧ ∃ c, t = s.skipIf c
  | .ldImm x _ | .addImm x _ | .ldReg x _ | .orReg x _ | .andReg x _ | .xorReg x _ | .ldVxDt x => ∃ b, t = s.setReg x b
  | .addReg x _ | .sub x _ | .shr x _ | .subn x _ | .shl x _ => ∃ p, t = s.setWithFlag x p
  | .rnd x nn => t = (s.setReg x (s.rnd &&& nn)).renewRnd
  | .ldI _ | .addI _ | .ldF _ => ∃ w, t = { s with idx := w }
  | .drw x y n => s.rangeOk n.val = true ∧
      t = s.drawSprite (s.reg x) (s.reg y) ((List.range n.val).map fun k => s.readByte (s.idx.toNat + k))
  | .ldVxK x => t = s.rewind ∨ ∃ b, t = s.setReg x b
  | .ldDtVx x => t = { s with dt := s.reg x }
  | .ldStVx x => t = { s with st := s.reg x }
  | .ldB x => s.rangeOk 3 = true ∧ t = s.writeBytes s.idx.toNat (bcdDigits (s.reg x))
  | .stRegs x => s.rangeOk (x.val + 1) = true ∧ t = s.writeBytes s.idx.toNat (s.regsUpTo x)
  | .ldRegs x => s.rangeOk (x.val + 1) = true ∧
      t = s.setRegs ((List.range (x.val + 1)).map fun k => s.readByte (s.idx.toNat + k))

/-- Every instruction either takes the fault it can take, or has its effect. -/
theorem exec_cases {i : Instr} {s t : State} (h : exec i s = .next t) :
    (∃ c n, CanFault s i c n ∧ t = s.raiseAt s.pc0 c n) ∨ Effect s t i := by
  cases i with
  | call nnn =>
    rcases push_cases s s.pc with ⟨hc, hp⟩ | ⟨hc, hp⟩ <;> simp only [exec, execCall, hp] at h <;> cases h
    · exact .inl ⟨_, _, .call nnn hc, rfl⟩
    · exact .inr ⟨hc, rfl⟩
  | ret =>
    rcases pop_cases s with ⟨hc, hp⟩ | ⟨hc, hp⟩ <;> simp only [exec, execRet, hp] at h <;> cases h
    · exact .inl ⟨_, _, .ret hc, rfl⟩
    · exact .inr ⟨hc, rfl⟩
  | drw x y n =>
    rcases loadBytes_cases s n.val with ⟨hc, hp⟩ | ⟨hc, hp⟩ <;> simp only [exec, execDrw, hp] at h <;> cases h
    · exact .inr ⟨hc, rfl⟩
    · exact .inl ⟨_, _, .drw x y n hc, rfl⟩
  | ldRegs x =>
    rcases loadBytes_cases s (x.val + 1) with ⟨hc, hp⟩ | ⟨hc, hp⟩ <;> simp only [exec, execLdRegs, hp] at h <;> cases h
    · exact .inr ⟨hc, rfl⟩
    · exact .inl ⟨_, _, .ldRegs x hc, rfl⟩
  | ldB x =>
    rcases storeBytes_cases s (bcdDigits (s.reg x)) with ⟨hc, hp⟩ | ⟨hc, hp⟩ <;>
      simp only [exec, execLdB, hp] at h <;> cases h
    · exact .inr ⟨hc, rfl⟩
    · exact .inl ⟨_, _, .ldB x hc, rfl⟩
  | stRegs x =>
    rcases storeBytes_cases s (s.regsUpTo x) with ⟨hc, hp⟩ | ⟨hc, hp⟩ <;>
      rw [length_regsUpTo] at hc <;> simp only [exec, execStRegs, hp] at h <;> cases h
    · exact .inr ⟨hc, rfl⟩
    · exact .inl ⟨_, _, .stRegs x hc, rfl⟩
  | skp x =>
    rcases keyAt_cases s (s.reg x) with ⟨hc, hp⟩ | ⟨hc, hp⟩ <;> simp only [exec, execSkp, hp] at h <;> cases h
    · exact .inr ⟨hc, _, rfl⟩
    · exact .inl ⟨_, _, .skp x hc, rfl⟩
  | sknp x =>
    rcases keyAt_cases s (s.reg x) with ⟨hc, hp⟩ | ⟨hc, hp⟩ <;> simp only [exec, execSknp, hp] at h <;> cases h
    · exact .inr ⟨hc, _, rfl⟩
    · exact .inl ⟨_, _, .sknp x hc, rfl⟩
  | ldVxK x =>
    simp only [exec, execLdVxK] at h
    split at h <;> cases h
    · exact .inr (.inr ⟨_, rfl⟩)
    · exact .inr (.inl rfl)
  | _ =>
    first
    | (cases h; exact .inr rfl)
    | (cases h; exact .inr ⟨_, rfl⟩)

end Sys2Proof.Machine
end

