-- ==== Sys2Proof/Laws/Frames.lean ====
section
/-! SUPPORT. The frames of the shared updates, in the terms of Safety.lean. -/

namespace Sys2Proof.Machine

variable (s : State)

theorem onlyReg_setReg (x : RegIdx) (b : Byte) : OnlyReg x b s (s.setReg x b) := by
  refine ⟨by simp, fun q hq => reg_setReg_ne s b hq, fun p hp => ?_⟩
  cases p <;> simp [Part.same, State.readByte] at hp ⊢

theorem onlyRegAndFlag_setWithFlag (x : RegIdx) (p : Byte × Bool) :
    OnlyRegAndFlag x p.1 (p.2 = true) s (s.setWithFlag x p) := by
  refine ⟨fun h => by simp [reg_setWithFlag, flagByte, h], fun h => by simp [reg_setWithFlag, flagByte, h],
    fun h => by simp [reg_setWithFlag, h], fun q h1 h2 => by simp [reg_setWithFlag, h1, h2], fun q hq => ?_⟩
  cases q <;> simp [Part.same, State.readByte] at hq ⊢

theorem same_skipIf (c : Bool) : SameExcept [.pc] s (s.skipIf c) := fun p hp => by
  cases p <;> simp [Part.same, State.readByte, State.reg] at hp ⊢

theorem same_jump (w : Word) : SameExcept [.pc] s (s.jump w) := fun p hp => by
  cases p <;> simp [Part.same, State.readByte, State.reg] at hp ⊢

theorem same_writeBytes (a : Nat) (bs : List Byte) : SameExcept [.memory] s (s.writeBytes a bs) := fun p hp => by
  cases p <;> simp [Part.same, State.reg] at hp ⊢

theorem same_setRegs (bs : List Byte) : SameExcept [.regs] s (s.setRegs bs) := fun p hp => by
  cases p <;> simp [Part.same, State.readByte] at hp ⊢

theorem same_drawSprite (vx vy : Byte) (rows : List Byte) : SameExcept [.regs, .screen] s (s.drawSprite vx vy rows) :=
  fun p hp => by cases p <;> simp [Part.same, State.readByte] at hp ⊢

/-- FINFO of a range fault (R39, R124). -/
theorem toNat_firstBad : s.firstBad.toNat = max s.idx.toNat 4096 := by
  have := s.idx.isLt
  simp only [State.firstBad, BitVec.toNat_ofNat]
  omega

end Sys2Proof.Machine
end

