-- ==== Sys2Proof/Laws/Step.lean ====
section
/-! SUPPORT. What one step can do, said once. -/

namespace Sys2Proof.Machine

/-! ### The four ways of a step -/

theorem step_of_faulted {s : State} (hs : s.status = .faulted) : step s = .next s := by
  simp [step, hs, State.stayFaulted]

theorem step_of_fetchFault {s : State} (hs : s.status = .running) (hf : s.fetchWord = none) :
    step s = .next s.fetchFault := by
  simp [step, hs, hf]

theorem step_of_instr {s : State} {op : Word} {i : Instr} (hs : s.status = .running) (hf : s.fetchWord = some op)
    (hd : decode op = .ok i) : step s = exec i s.advance := by
  simp [step, hs, hf, hd]

theorem step_of_unrecognized {s : State} {op : Word} {r : Reject} (hs : s.status = .running)
    (hf : s.fetchWord = some op) (hd : decode op = .error r) : step s = .next s.advance := by
  simp [step, hs, hf, hd, State.skipUnrecognized]

/-- A step that answers `t` did one of four things: nothing, FAULTED; a fetch fault; an instruction; a reported no-op. -/
theorem step_cases {s t : State} (h : step s = .next t) :
    (s.status = .faulted ∧ t = s) ∨
    (s.status = .running ∧ 4094 < s.pc.toNat ∧ t = s.fetchFault) ∨
    (s.status = .running ∧ s.pc.toNat ≤ 4094 ∧
      ((∃ i, decode (wordOfBytes (s.readByte s.pc.toNat) (s.readByte (s.pc.toNat + 1))) = .ok i ∧
          exec i s.advance = .next t) ∨
        (∃ r, decode (wordOfBytes (s.readByte s.pc.toNat) (s.readByte (s.pc.toNat + 1))) = .error r ∧
          t = s.advance))) := by
  unfold step at h
  split at h
  · exact .inl ⟨‹_›, by injection h with h; exact h.symm⟩
  · rename_i hs
    rcases fetchWord_cases s with ⟨hp, hf⟩ | ⟨hp, hf⟩ <;> rw [hf] at h
    · refine .inr (.inr ⟨hs, hp, ?_⟩)
      dsimp only at h
      split at h
      · exact .inl ⟨_, ‹_›, h⟩
      · exact .inr ⟨_, ‹_›, by injection h with h; exact h.symm⟩
    · exact .inr (.inl ⟨hs, hp, by injection h with h; exact h.symm⟩)

end Sys2Proof.Machine
end

