-- ==== Sys2Proof/Laws/HostOps.lean ====
section
/-! SUPPORT. The operations that place bytes in memory keep its canonical form; what an instruction placed for the fetch does; runs under a schedule, one operation at a time. -/

namespace Sys2Proof.Machine

/-- Reset memory is in canonical form, whatever FONT is. -/
theorem resetWith_mem_wf (font : Vector Byte 80) (r : Byte) (d : Nat) :
    Memory.wf (State.resetWith font r d).font (State.resetWith font r d).mem := Memory.wf_nil font

theorem reset_mem_wf : Memory.wf State.reset.font State.reset.mem := resetWith_mem_wf _ _ _

variable {s : State}

/-- A block write inside the address space keeps the canonical form. -/
theorem writeBytes_mem_wf (h : Memory.wf s.font s.mem) {a : Nat} {bs : List Byte} (ha : a + bs.length ≤ 4096) :
    Memory.wf (s.writeBytes a bs).font (s.writeBytes a bs).mem := Memory.wf_writeBytes s.font bs h ha

/-- A checked store keeps the canonical form. -/
theorem storeBytes_mem_wf (h : Memory.wf s.font s.mem) {bs : List Byte} {t : State} (ht : s.storeBytes bs = some t) :
    Memory.wf t.font t.mem := by
  rcases storeBytes_cases s bs with ⟨hr, hs⟩ | ⟨-, hs⟩ <;> rw [hs] at ht <;> cases ht
  cases bs with
  | nil => exact h
  | cons b bs =>
    rw [List.length_cons, rangeOk_succ] at hr
    have := of_decide_eq_true hr
    exact writeBytes_mem_wf h (by rw [List.length_cons]; omega)

/-- LOAD of an image that fits keeps the canonical form (R141). -/
theorem opLoad_mem_wf (h : Memory.wf s.font s.mem) {image : List Byte} (hi : imageFits image = true) :
    Memory.wf (s.opLoad image).font (s.opLoad image).mem := by
  have hl : image.length ≤ Config.progMax := of_decide_eq_true hi
  have hb : Config.progBase + Config.progMax = 4096 := rfl
  exact writeBytes_mem_wf h (by omega)

/-- LOAD of one byte keeps the canonical form (R27). -/
theorem loadByte_mem_wf (h : Memory.wf s.font s.mem) (off : Addr12) (b : Byte) :
    Memory.wf (s.loadByte off b).2.font (s.loadByte off b).2.mem := by
  unfold State.loadByte
  split
  · have hb : Config.progBase + Config.progMax = 4096 := rfl
    exact writeBytes_mem_wf h (by rw [List.length_singleton]; omega)
  · exact h

/-- Placing an instruction for the fetch keeps the canonical form. -/
theorem withFetchWord_mem_wf (h : Memory.wf s.font s.mem) (nbits w : Nat) :
    Memory.wf (s.withFetchWord nbits w).font (s.withFetchWord nbits w).mem := by
  unfold State.withFetchWord
  split
  · exact h
  · exact writeBytes_mem_wf h (by simp only [bytesOfWord, List.length_cons, List.length_nil]; omega)

/-- The word placed is the word fetched. -/
theorem fetchWord_withFetchWord (hp : s.pc.toNat ≤ 4094) (w : Nat) :
    (s.withFetchWord 16 w).fetchWord = some (BitVec.ofNat 16 w) := by
  have hw : s.withFetchWord 16 w = s.writeBytes s.pc.toNat (bytesOfWord (BitVec.ofNat 16 w)) := by
    have : BitVec.ofNat 16 (w % 2 ^ 16) = BitVec.ofNat 16 w := BitVec.eq_of_toNat_eq (by simp)
    rw [State.withFetchWord, if_neg (by omega), this]
  rcases fetchWord_cases (s.withFetchWord 16 w) with ⟨-, hf⟩ | ⟨h, -⟩
  · have h0 := readByte_writeBytes_inside s s.pc.toNat 0 (bytesOfWord (BitVec.ofNat 16 w)) (by simp [bytesOfWord])
    have h1 := readByte_writeBytes_inside s s.pc.toNat 1 (bytesOfWord (BitVec.ofNat 16 w)) (by simp [bytesOfWord])
    rw [hf, hw, writeBytes_pc]
    rw [Nat.add_zero] at h0
    rw [h0, h1]
    exact congrArg some (wordOfBytes_split _)
  · rw [hw, writeBytes_pc] at h
    omega

/-- The instruction placed is the instruction run. -/
theorem step_withFetchWord (hs : s.status = .running) (hp : s.pc.toNat ≤ 4094) {w : Nat} {i : Instr}
    (hd : decode (BitVec.ofNat 16 w) = .ok i) :
    step (s.withFetchWord 16 w) = exec i (s.withFetchWord 16 w).advance := by
  refine step_of_instr ?_ (fetchWord_withFetchWord hp w) hd
  rw [State.withFetchWord, if_neg (by omega)]
  exact hs

/-- TICK on one timer (R137). -/
theorem toNat_tickDown (b : Byte) : (tickDown b).toNat = b.toNat - 1 := by
  have := b.isLt
  unfold tickDown
  split
  · rw [BitVec.toNat_sub_of_le (by simp [BitVec.le_def]; omega)]
    rfl
  · omega

/-! ### Runs under a schedule (R160) -/

theorem perform_step {b : Byte} {t : State} (h : step (s.withRnd b) = .next t) :
    perform (.step b) s = .next (stepResult s t, t) := by simp only [perform, h]

@[simp] theorem runSchedule_nil : runSchedule [] s = .next ([], s) := rfl

theorem runSchedule_cons {op : HostOp} {ops : List HostOp} {r : OpResult} {t : State}
    (h : perform op s = .next (r, t)) : runSchedule (op :: ops) s = consResult r (runSchedule ops t) := by
  simp only [runSchedule, h]

/-- A run that answers is its first operation and then the run of the rest. -/
theorem runSchedule_cons_cases {op : HostOp} {ops : List HostOp} {rs : List OpResult} {u : State}
    (h : runSchedule (op :: ops) s = .next (rs, u)) :
    ∃ r t rs', perform op s = .next (r, t) ∧ runSchedule ops t = .next (rs', u) ∧ rs = r :: rs' := by
  rcases hp : perform op s with ⟨r, t⟩ | f | e <;> simp only [runSchedule, hp] at h
  · rcases hr : runSchedule ops t with ⟨rs', u'⟩ | f | e <;> rw [hr] at h <;> cases h
    exact ⟨r, t, rs', rfl, hr, rfl⟩
  · cases h
  · cases h

/-- Two schedules one after the other. -/
theorem runSchedule_append {ops ops' : List HostOp} {rs rs' : List OpResult} {t u : State}
    (h : runSchedule ops s = .next (rs, t)) (h' : runSchedule ops' t = .next (rs', u)) :
    runSchedule (ops ++ ops') s = .next (rs ++ rs', u) := by
  induction ops generalizing s rs with
  | nil => cases h; exact h'
  | cons op ops ih =>
    obtain ⟨r, v, rs'', hp, hr, rfl⟩ := runSchedule_cons_cases h
    rw [List.cons_append, runSchedule_cons hp, ih hr]
    rfl

@[simp] theorem runFor_zero (sched : Nat → HostOp) : runFor sched 0 s = .next ([], s) := rfl

/-- The prefix of one more operation. -/
theorem runFor_succ {sched : Nat → HostOp} {n : Nat} {rs : List OpResult} {r : OpResult} {t u : State}
    (h : runFor sched n s = .next (rs, t)) (hp : perform (sched n) t = .next (r, u)) :
    runFor sched (n + 1) s = .next (rs ++ [r], u) := by
  rw [runFor, List.range_succ, List.map_append]
  exact runSchedule_append h (by rw [List.map_singleton, runSchedule_cons hp, runSchedule_nil, consResult])

/-- What every operation of a schedule keeps, the schedule keeps. -/
theorem runSchedule_keeps {P : State → Prop} {ops : List HostOp}
    (hP : ∀ op ∈ ops, ∀ s t r, P s → perform op s = .next (r, t) → P t) {rs : List OpResult} {t : State} (hs : P s)
    (h : runSchedule ops s = .next (rs, t)) : P t := by
  induction ops generalizing s rs with
  | nil => cases h; exact hs
  | cons op ops ih =>
    obtain ⟨r, v, rs', hp, hr, -⟩ := runSchedule_cons_cases h
    exact ih (fun o ho => hP o (List.mem_cons_of_mem _ ho)) (hP op List.mem_cons_self _ _ _ hs hp) hr

/-- An operation between two STEPs answers, leaves all but memory, timers and keys, and is a TICK or leaves the timers. -/
theorem perform_between {op : HostOp} (h : betweenSteps op = true) :
    ∃ r t, perform op s = .next (r, t) ∧ SameExcept [.memory, .delay, .sound, .keys] s t ∧
      t.dt = if op = .tick then tickDown s.dt else s.dt := by
  have refl : SameExcept [.memory, .delay, .sound, .keys] s s := fun p _ => by cases p <;> simp [Part.same]
  cases op with
  | reset | step _ => cases h
  | tick => exact ⟨_, _, rfl, fun p hp => by cases p <;> simp [Part.same, State.reg] at hp ⊢, by simp⟩
  | readFb => exact ⟨_, _, rfl, refl, by simp⟩
  | load image =>
    by_cases hi : imageFits image = true
    · exact ⟨_, s.opLoad image, by rw [perform, if_pos hi],
        fun p hp => by cases p <;> simp [Part.same, State.opLoad, State.reg] at hp ⊢, by simp [State.opLoad]⟩
    · exact ⟨_, s, by rw [perform, if_neg hi], refl, by simp⟩
  | key k pressed =>
    by_cases hk : k < 16
    · exact ⟨_, s.opKey ⟨k, hk⟩ pressed, by rw [perform, dif_pos hk],
        fun p hp => by cases p <;> simp [Part.same, State.reg] at hp ⊢, by simp⟩
    · exact ⟨_, s, by rw [perform, dif_neg hk], refl, by simp⟩

end Sys2Proof.Machine
end

