-- ==== Sys2Proof/Laws/PerInstr.lean ====
section
/-! SUPPORT. Statements about every instruction, one lemma per constructor. Family EncodedInRow: the encoder's word lies in the instruction's own row of spec/30_encoding.md R49. -/

namespace Sys2Proof

/-! ### What the masks of R46 leave of each format -/

theorem mask_FA (op : BitVec 4) (nnn : Addr12) : wordFA op nnn &&& 0xF000 = wordFA op 0 := by
  have h : ∀ i < 16, (0xF000 : Word).getLsbD i = decide (12 ≤ i) := by decide
  refine BitVec.eq_of_getLsbD_eq fun i hi => ?_
  rw [BitVec.getLsbD_and, h i hi, getLsbD_wordFA, getLsbD_wordFA]
  by_cases h12 : i < 12
  · simp [h12]
  · simp [h12, show 12 ≤ i by omega]

theorem mask_FXK (op : BitVec 4) (x : RegIdx) (nn : Byte) : wordFXK op x nn &&& 0xF000 = wordFXK op 0 0 := by
  have h : ∀ i < 16, (0xF000 : Word).getLsbD i = decide (12 ≤ i) := by decide
  refine BitVec.eq_of_getLsbD_eq fun i hi => ?_
  rw [BitVec.getLsbD_and, h i hi, getLsbD_wordFXK, getLsbD_wordFXK]
  by_cases h8 : i < 8
  · simp [h8, show ¬12 ≤ i by omega]
  · by_cases h12 : i < 12
    · simp [h8, h12]
    · simp [h8, h12, show 12 ≤ i by omega]

theorem mask_FX (op : BitVec 4) (x : RegIdx) (nn : Byte) : wordFXK op x nn &&& 0xF0FF = wordFXK op 0 nn := by
  have h : ∀ i < 16, (0xF0FF : Word).getLsbD i = (decide (12 ≤ i) || decide (i < 8)) := by decide
  refine BitVec.eq_of_getLsbD_eq fun i hi => ?_
  rw [BitVec.getLsbD_and, h i hi, getLsbD_wordFXK, getLsbD_wordFXK]
  by_cases h8 : i < 8
  · simp [h8]
  · by_cases h12 : i < 12
    · simp [h8, h12]
    · simp [h8, h12, show 12 ≤ i by omega]

theorem mask_FXY (op : BitVec 4) (x y n : Fin 16) : wordFXYN op x y n &&& 0xF00F = wordFXYN op 0 0 n := by
  have h : ∀ i < 16, (0xF00F : Word).getLsbD i = (decide (12 ≤ i) || decide (i < 4)) := by decide
  refine BitVec.eq_of_getLsbD_eq fun i hi => ?_
  rw [BitVec.getLsbD_and, h i hi, getLsbD_wordFXYN, getLsbD_wordFXYN]
  by_cases h4 : i < 4
  · simp [h4]
  · by_cases h8 : i < 8
    · simp [h4, h8, show ¬12 ≤ i by omega]
    · by_cases h12 : i < 12
      · simp [h4, h8, h12]
      · simp [h4, h8, h12, show 12 ≤ i by omega]

theorem mask_FXYN (op : BitVec 4) (x y n : Fin 16) : wordFXYN op x y n &&& 0xF000 = wordFXYN op 0 0 0 := by
  have h : ∀ i < 16, (0xF000 : Word).getLsbD i = decide (12 ≤ i) := by decide
  refine BitVec.eq_of_getLsbD_eq fun i hi => ?_
  rw [BitVec.getLsbD_and, h i hi, getLsbD_wordFXYN, getLsbD_wordFXYN]
  by_cases h12 : i < 12
  · simp [h12, show ¬12 ≤ i by omega]
  · simp [show ¬i < 4 by omega, show ¬i < 8 by omega, h12, show 12 ≤ i by omega]

end Sys2Proof

namespace Sys2Proof.Laws.EncodedInRow

/-- The encoder's word has its row's fixed bits: `(op & mask) = match` (R48, R49). -/
def Statement (i : Instr) : Prop := encode i &&& i.rowMask = i.rowMatch

theorem cls : Statement (.cls) := rfl
theorem ret : Statement (.ret) := rfl
theorem jp (nnn : Addr12) : Statement (.jp nnn) := (mask_FA _ _).trans rfl
theorem call (nnn : Addr12) : Statement (.call nnn) := (mask_FA _ _).trans rfl
theorem seImm (x : RegIdx) (nn : Byte) : Statement (.seImm x nn) := (mask_FXK _ _ _).trans rfl
theorem sneImm (x : RegIdx) (nn : Byte) : Statement (.sneImm x nn) := (mask_FXK _ _ _).trans rfl
theorem seReg (x : RegIdx) (y : RegIdx) : Statement (.seReg x y) := (mask_FXY _ _ _ _).trans rfl
theorem ldImm (x : RegIdx) (nn : Byte) : Statement (.ldImm x nn) := (mask_FXK _ _ _).trans rfl
theorem addImm (x : RegIdx) (nn : Byte) : Statement (.addImm x nn) := (mask_FXK _ _ _).trans rfl
theorem ldReg (x : RegIdx) (y : RegIdx) : Statement (.ldReg x y) := (mask_FXY _ _ _ _).trans rfl
theorem orReg (x : RegIdx) (y : RegIdx) : Statement (.orReg x y) := (mask_FXY _ _ _ _).trans rfl
theorem andReg (x : RegIdx) (y : RegIdx) : Statement (.andReg x y) := (mask_FXY _ _ _ _).trans rfl
theorem xorReg (x : RegIdx) (y : RegIdx) : Statement (.xorReg x y) := (mask_FXY _ _ _ _).trans rfl
theorem addReg (x : RegIdx) (y : RegIdx) : Statement (.addReg x y) := (mask_FXY _ _ _ _).trans rfl
theorem sub (x : RegIdx) (y : RegIdx) : Statement (.sub x y) := (mask_FXY _ _ _ _).trans rfl
theorem shr (x : RegIdx) (y : RegIdx) : Statement (.shr x y) := (mask_FXY _ _ _ _).trans rfl
theorem subn (x : RegIdx) (y : RegIdx) : Statement (.subn x y) := (mask_FXY _ _ _ _).trans rfl
theorem shl (x : RegIdx) (y : RegIdx) : Statement (.shl x y) := (mask_FXY _ _ _ _).trans rfl
theorem sneReg (x : RegIdx) (y : RegIdx) : Statement (.sneReg x y) := (mask_FXY _ _ _ _).trans rfl
theorem ldI (nnn : Addr12) : Statement (.ldI nnn) := (mask_FA _ _).trans rfl
theorem jpV0 (nnn : Addr12) : Statement (.jpV0 nnn) := (mask_FA _ _).trans rfl
theorem rnd (x : RegIdx) (nn : Byte) : Statement (.rnd x nn) := (mask_FXK _ _ _).trans rfl
theorem drw (x : RegIdx) (y : RegIdx) (n : RowCount) : Statement (.drw x y n) := (mask_FXYN _ _ _ _).trans rfl
theorem skp (x : RegIdx) : Statement (.skp x) := (mask_FX _ _ _).trans rfl
theorem sknp (x : RegIdx) : Statement (.sknp x) := (mask_FX _ _ _).trans rfl
theorem ldVxDt (x : RegIdx) : Statement (.ldVxDt x) := (mask_FX _ _ _).trans rfl
theorem ldVxK (x : RegIdx) : Statement (.ldVxK x) := (mask_FX _ _ _).trans rfl
theorem ldDtVx (x : RegIdx) : Statement (.ldDtVx x) := (mask_FX _ _ _).trans rfl
theorem ldStVx (x : RegIdx) : Statement (.ldStVx x) := (mask_FX _ _ _).trans rfl
theorem addI (x : RegIdx) : Statement (.addI x) := (mask_FX _ _ _).trans rfl
theorem ldF (x : RegIdx) : Statement (.ldF x) := (mask_FX _ _ _).trans rfl
theorem ldB (x : RegIdx) : Statement (.ldB x) := (mask_FX _ _ _).trans rfl
theorem stRegs (x : RegIdx) : Statement (.stRegs x) := (mask_FX _ _ _).trans rfl
theorem ldRegs (x : RegIdx) : Statement (.ldRegs x) := (mask_FX _ _ _).trans rfl

end Sys2Proof.Laws.EncodedInRow
end

