-- ==== Sys2Proof/Laws/Screen.lean ====
section
/-! SUPPORT. The framebuffer: what toggling a cell, drawing a row and drawing a sprite do, said once, cell by cell. -/

namespace Sys2Proof.Machine

/-! ### Cells -/

theorem Screen.cell_mod (fb : Screen) (y x : Nat) : fb.cell (y % 32) (x % 64) = fb.cell y x := by
  simp [Screen.cell]

@[simp] theorem Screen.cell_blank (y x : Nat) : Screen.blank.cell y x = false := by
  simp [Screen.cell, Screen.blank]

theorem Screen.cell_toggle (fb : Screen) (y x y' x' : Nat) :
    (fb.toggle y x).cell y' x' =
      if y' % 32 = y % 32 ∧ x' % 64 = x % 64 then !fb.cell y x else fb.cell y' x' := by
  by_cases hy : y' % 32 = y % 32
  · by_cases hx : x' % 64 = x % 64
    · simp [Screen.cell, Screen.toggle, hy, hx]
    · simp [Screen.cell, Screen.toggle, hy, hx, Ne.symm hx]
  · simp [Screen.cell, Screen.toggle, hy, Ne.symm hy]

/-- Screens with the same cells are the same screen. -/
theorem Screen.ext_cell {f g : Screen} (h : ∀ y x, f.cell y x = g.cell y x) : f = g := by
  refine Vector.ext fun y hy => Vector.ext fun x hx => ?_
  have := h y x
  simpa [Screen.cell, Nat.mod_eq_of_lt hy, Nat.mod_eq_of_lt hx] using this

/-! ### Sprites -/

/-- How far right of column `x0` the cell `x` lies, going round. -/
def offX (x0 x : Nat) : Nat := (x + 64 - x0 % 64) % 64

/-- How far below row `y0` the cell `y` lies, going round. -/
def offY (y0 y : Nat) : Nat := (y + 32 - y0 % 32) % 32

theorem offX_eq_iff (x0 x c : Nat) (hc : c < 64) : offX x0 x = c ↔ x % 64 = (x0 + c) % 64 := by
  unfold offX
  omega

theorem offY_eq_iff (y0 y r : Nat) (hr : r < 32) : offY y0 y = r ↔ y % 32 = (y0 + r) % 32 := by
  unfold offY
  omega

theorem drawPixel_cell (y x : Nat) (bit : Bool) (p : Screen × Bool) (y' x' : Nat) :
    (drawPixel y x bit p).1.cell y' x' =
      (p.1.cell y' x' ^^ (decide (y' % 32 = y % 32) && decide (x' % 64 = x % 64) && bit)) := by
  cases bit
  · simp [drawPixel]
  · simp only [drawPixel, if_true, Screen.cell_toggle]
    by_cases hy : y' % 32 = y % 32 <;> by_cases hx : x' % 64 = x % 64
    · rw [← p.1.cell_mod y x, ← p.1.cell_mod y' x', hy, hx]
      simp
    all_goals simp [hy, hx]

theorem drawPixel_hit (y x : Nat) (bit : Bool) (p : Screen × Bool) :
    (drawPixel y x bit p).2 = (p.2 || (bit && p.1.cell y x)) := by
  cases bit <;> simp [drawPixel]

theorem foldl_drawPixel (y x0 : Nat) (b : Byte) (p : Screen × Bool) : ∀ k ≤ 8,
    (∀ y' x', ((List.range k).foldl (fun q c => drawPixel y (x0 + c) (b.getLsbD (7 - c)) q) p).1.cell y' x' =
      (p.1.cell y' x' ^^ (decide (y' % 32 = y % 32) && decide (offX x0 x' < k) && b.getLsbD (7 - offX x0 x')))) ∧
    ((List.range k).foldl (fun q c => drawPixel y (x0 + c) (b.getLsbD (7 - c)) q) p).2 =
      (p.2 || (List.range k).any fun c => b.getLsbD (7 - c) && p.1.cell y (x0 + c)) := by
  intro k
  induction k with
  | zero => intro _; simp
  | succ k ih =>
    intro hk
    obtain ⟨ihc, ihh⟩ := ih (by omega)
    rw [List.range_succ, List.foldl_append]
    simp only [List.foldl_cons, List.foldl_nil]
    refine ⟨fun y' x' => ?_, ?_⟩
    · rw [drawPixel_cell, ihc]
      have hiff := offX_eq_iff x0 x' k (by omega)
      by_cases hx : x' % 64 = (x0 + k) % 64
      · have ho := hiff.2 hx
        simp [hx, ho]
      · have ho : offX x0 x' ≠ k := fun h => hx (hiff.1 h)
        have : offX x0 x' < k + 1 ↔ offX x0 x' < k := by omega
        simp [hx, this]
    · have hx : offX x0 (x0 + k) = k := (offX_eq_iff x0 (x0 + k) k (by omega)).2 rfl
      rw [drawPixel_hit, ihh, ihc, hx]
      simp [Bool.or_assoc]

/-- A sprite row flips exactly the cells its 1 bits aim at. -/
theorem drawRow_cell (y x0 : Nat) (b : Byte) (p : Screen × Bool) (y' x' : Nat) :
    (drawRow y x0 b p).1.cell y' x' =
      (p.1.cell y' x' ^^ (decide (y' % 32 = y % 32) && decide (offX x0 x' < 8) && b.getLsbD (7 - offX x0 x'))) :=
  (foldl_drawPixel y x0 b p 8 le_rfl).1 y' x'

/-- A sprite row collides exactly where a 1 bit aims at a lit cell. -/
theorem drawRow_hit (y x0 : Nat) (b : Byte) (p : Screen × Bool) :
    (drawRow y x0 b p).2 = (p.2 || (List.range 8).any fun c => b.getLsbD (7 - c) && p.1.cell y (x0 + c)) :=
  (foldl_drawPixel y x0 b p 8 le_rfl).2

/-- A sprite of at most 32 rows flips exactly the cells its 1 bits aim at. -/
theorem drawRows_cell (x0 : Nat) (bs : List Byte) : ∀ (y0 : Nat) (p : Screen × Bool) (y x : Nat), bs.length ≤ 32 →
    (drawRows x0 y0 bs p).1.cell y x =
      (p.1.cell y x ^^ (decide (offX x0 x < 8) && ((bs[offY y0 y]?).getD 0).getLsbD (7 - offX x0 x))) := by
  induction bs with
  | nil => intro y0 p y x _; simp [drawRows]
  | cons b bs ih =>
    intro y0 p y x h
    rw [List.length_cons] at h
    rw [drawRows, ih _ _ _ _ (by omega), drawRow_cell]
    by_cases hy : y % 32 = y0 % 32
    · have h0 : offY y0 y = 0 := (offY_eq_iff y0 y 0 (by omega)).2 (by simpa using hy)
      have h1 : bs.length ≤ offY (y0 + 1) y := by unfold offY; omega
      simp [hy, h0, List.getElem?_eq_none h1]
    · have h0 : offY y0 y = offY (y0 + 1) y + 1 := by unfold offY; omega
      simp [hy, h0]

/-- A sprite of at most 32 rows collides exactly where a 1 bit aims at a cell that was lit before the draw. -/
theorem drawRows_hit (x0 : Nat) (bs : List Byte) : ∀ (y0 : Nat) (p : Screen × Bool), bs.length ≤ 32 →
    ((drawRows x0 y0 bs p).2 = true ↔
      p.2 = true ∨ ∃ r, ∃ h : r < bs.length, ∃ c < 8, bs[r].getLsbD (7 - c) = true ∧ p.1.cell (y0 + r) (x0 + c) = true) := by
  induction bs with
  | nil => intro y0 p _; simp [drawRows]
  | cons b bs ih =>
    intro y0 p h
    rw [List.length_cons] at h
    have hrow : ∀ r < bs.length, ∀ c, (drawRow y0 x0 b p).1.cell (y0 + 1 + r) (x0 + c) =
        p.1.cell (y0 + (r + 1)) (x0 + c) := by
      intro r hr c
      have : ¬(y0 + 1 + r) % 32 = y0 % 32 := by omega
      rw [drawRow_cell, show y0 + (r + 1) = y0 + 1 + r by omega]
      simp [this]
    rw [drawRows, ih _ _ (by omega), drawRow_hit]
    constructor
    · rintro (h | ⟨r, hr, c, hc, hb, hcell⟩)
      · rcases Bool.or_eq_true_iff.1 h with h | h
        · exact .inl h
        · obtain ⟨c, hc, hbit⟩ := List.any_eq_true.1 h
          obtain ⟨hb, hcell⟩ := Bool.and_eq_true_iff.1 hbit
          exact .inr ⟨0, by simp, c, List.mem_range.1 hc, hb, hcell⟩
      · exact .inr ⟨r + 1, by simpa using hr, c, hc, by simpa using hb, hrow r hr c ▸ hcell⟩
    · rintro (h | ⟨r, hr, c, hc, hb, hcell⟩)
      · exact .inl (by simp [h])
      · cases r with
        | zero =>
          refine .inl (Bool.or_eq_true_iff.2 (.inr (List.any_eq_true.2 ⟨c, List.mem_range.2 hc, ?_⟩)))
          simpa using ⟨hb, hcell⟩
        | succ r =>
          have hr' : r < bs.length := by simpa using hr
          exact .inr ⟨r, hr', c, hc, by simpa using hb, (hrow r hr' c).trans hcell⟩

end Sys2Proof.Machine
end

