-- ==== Sys2Proof/Tests/Slice0.lean ====
section
/-! SUPPORT. Tests. Expected values are the spec's: spec/95_test_vectors.md (vector ids in the docstrings) and the encodings of spec/30_encoding.md R49. Then the witnesses: for each obligation with hypotheses, a state and operands that meet them. -/

namespace Sys2Proof.Tests

open Sys2Proof.Machine

/-! ### WellFormed refuses ill-formed terms (R47, R132) -/

theorem test_wf_register : regFits 15 = true ∧ regFits 16 = false := by decide
theorem test_wf_count : countFits 15 = true ∧ countFits 16 = false := by decide
theorem test_wf_byte : byteFits 255 = true ∧ byteFits 256 = false := by decide
theorem test_wf_address : addrFits 4095 = true ∧ addrFits 4096 = false := by decide
theorem test_wf_key : keyFits 15 = true ∧ keyFits 16 = false := by decide
theorem test_wf_image : imageFits (List.replicate 3584 0) = true ∧ imageFits (List.replicate 3585 0) = false :=
  ⟨decide_eq_true (by rw [List.length_replicate]; decide), decide_eq_false (by rw [List.length_replicate]; decide)⟩

/-! ### Decoding: words written out from the encodings of R49, one for each row at least (95_test_vectors.md 2.1) -/

theorem test_decode_cls : decode 0x00E0 = .ok (.cls) := rfl
theorem test_decode_ret : decode 0x00EE = .ok (.ret) := rfl
theorem test_decode_jp : decode 0x10E0 = .ok (.jp 0x0E0) := rfl
theorem test_decode_call : decode 0x2FFF = .ok (.call 0xFFF) := rfl
theorem test_decode_seImm : decode 0x3A05 = .ok (.seImm 0xA 0x05) := rfl
theorem test_decode_sneImm : decode 0x4FFF = .ok (.sneImm 0xF 0xFF) := rfl
theorem test_decode_seReg : decode 0x5120 = .ok (.seReg 1 2) := rfl
theorem test_decode_ldImm : decode 0x6A05 = .ok (.ldImm 0xA 0x05) := rfl
theorem test_decode_addImm : decode 0x7001 = .ok (.addImm 0 0x01) := rfl
theorem test_decode_ldReg : decode 0x8AB0 = .ok (.ldReg 0xA 0xB) := rfl
theorem test_decode_orReg : decode 0x8AB1 = .ok (.orReg 0xA 0xB) := rfl
theorem test_decode_andReg : decode 0x8AB2 = .ok (.andReg 0xA 0xB) := rfl
theorem test_decode_xorReg : decode 0x8AB3 = .ok (.xorReg 0xA 0xB) := rfl
theorem test_decode_addReg : decode 0x8AB4 = .ok (.addReg 0xA 0xB) := rfl
theorem test_decode_sub : decode 0x8AB5 = .ok (.sub 0xA 0xB) := rfl
theorem test_decode_shr : decode 0x8AB6 = .ok (.shr 0xA 0xB) := rfl
theorem test_decode_subn : decode 0x8AB7 = .ok (.subn 0xA 0xB) := rfl
theorem test_decode_shl : decode 0x8ABE = .ok (.shl 0xA 0xB) := rfl
theorem test_decode_sneReg : decode 0x9120 = .ok (.sneReg 1 2) := rfl
theorem test_decode_ldI : decode 0xA2F0 = .ok (.ldI 0x2F0) := rfl
theorem test_decode_jpV0 : decode 0xB004 = .ok (.jpV0 0x004) := rfl
theorem test_decode_rnd : decode 0xC30F = .ok (.rnd 3 0x0F) := rfl
theorem test_decode_drw : decode 0xD015 = .ok (.drw 0 1 5) := rfl
theorem test_decode_skp : decode 0xE19E = .ok (.skp 1) := rfl
theorem test_decode_sknp : decode 0xE1A1 = .ok (.sknp 1) := rfl
theorem test_decode_ldVxDt : decode 0xF107 = .ok (.ldVxDt 1) := rfl
theorem test_decode_ldVxK : decode 0xF10A = .ok (.ldVxK 1) := rfl
theorem test_decode_ldDtVx : decode 0xF115 = .ok (.ldDtVx 1) := rfl
theorem test_decode_ldStVx : decode 0xF118 = .ok (.ldStVx 1) := rfl
theorem test_decode_addI : decode 0xFA1E = .ok (.addI 0xA) := rfl
theorem test_decode_ldF : decode 0xF129 = .ok (.ldF 1) := rfl
theorem test_decode_ldB : decode 0xF133 = .ok (.ldB 1) := rfl
theorem test_decode_stRegs : decode 0xF155 = .ok (.stRegs 1) := rfl
theorem test_decode_ldRegs : decode 0xF165 = .ok (.ldRegs 1) := rfl

/-- The unrecognized words of the table of 95_test_vectors.md 2.1. -/
theorem test_decode_unrecognized :
    ∀ op ∈ [0x0000, 0x00E1, 0x00FE, 0x0123, 0x5121, 0x8AB8, 0x8ABD, 0x8ABF, 0x912F, 0xE19F, 0xE000, 0xF100, 0xF175, 0xFFFF],
      decode op = .error (.unrecognized op) := by
  intro op h
  simp only [List.mem_cons, List.not_mem_nil, or_false] at h
  rcases h with rfl | rfl | rfl | rfl | rfl | rfl | rfl | rfl | rfl | rfl | rfl | rfl | rfl | rfl <;> rfl

theorem test_decode_truncated : decodeBytes [0x12] = .error .truncated := rfl

/-- The first byte is the high one (R31). -/
theorem test_decode_bytes : decodeBytes [0x6A, 0x05, 0xFA] = .ok (.ldImm 0xA 0x05, [0xFA]) := rfl

theorem test_decode_table_word : decodeTableWord 16 0xD015 = some (.drw 0 1 5) := rfl

theorem test_encode_fields : encode (.drw 0xA 0xB 0xC) = 0xDABC ∧ encode (.ldI 0x123) = 0xA123 := by decide

theorem test_asm : Instr.asm (.ldI 0x2F0) = "LD I, 0x2F0" ∧ Instr.asm (.shr 0xA 0xB) = "SHR VA" := by decide

/-! ### One step on a small state -/

/-- A state after RESET whose STEP is given the byte 0xA7. -/
def base : State := State.resetWith Config.defaultFont 0xA7 0

/-- With these registers. -/
def withRegs (l : List (RegIdx × Byte)) (s : State) : State := l.foldl (fun t p => t.setReg p.1 p.2) s

/-- With these bytes in memory from `a` on. -/
def withMem (a : Nat) (bs : List Byte) (s : State) : State := s.writeBytes a bs

/-- With `I`. -/
def withI (i : Word) (s : State) : State := { s with idx := i }

/-- With the instruction word `op` at `pc`, and PC there. -/
def at' (pc op : Word) (s : State) : State := { s with pc := pc }.writeBytes pc.toNat (bytesOfWord op)

/-- The step answers a next state that passes the check. -/
def steps (s : State) (p : State → Bool) : Bool :=
  match step s with
  | .next t => p t
  | .fault _ => false
  | .refused _ => false

/-- The fault record and PC of a state. -/
def faultIs (t : State) (cause : BitVec 3) (pc : Word) (info : Nat) : Bool :=
  t.status == .faulted && t.fcause.code == cause && t.fpc == pc && t.pc == pc && t.finfo.toNat == info

/-- CY1. -/
theorem test_cycle_big_endian : steps (at' 0x200 0x1234 base)
    (fun t => t.pc == 0x234) = true := by decide

/-- CY4: a reported no-op. -/
theorem test_cycle_unrecognized : steps (at' 0xFFE 0x0000 base)
    (fun t => t.pc == 0x1000 && t.status == .running) = true := by decide

/-- CY3. -/
theorem test_cycle_odd_pc : steps (at' 0x203 0x602A base)
    (fun t => t.reg 0 == 0x2A && t.pc == 0x205) = true := by decide

/-- CY6: the second byte would be at 4096. -/
theorem test_cycle_fetch_oob : steps ({ base with pc := 0xFFF })
    (fun t => faultIs t 1 0xFFF 4095) = true := by decide

/-- CY7. -/
theorem test_cycle_faulted : steps ({ base with status := .faulted })
    (fun t => t.pc == 0x200 && t.status == .faulted) = true := by decide

/-- FL3. -/
theorem test_jp_odd : steps (at' 0x200 0x1203 base)
    (fun t => t.pc == 0x203) = true := by decide

/-- FL6: the 16th nested call. -/
theorem test_call : steps (at' 0x200 0x2200 ({ base with sp := 15 }))
    (fun t => t.stack[15] == 0x202 && t.sp == 16 && t.pc == 0x200) = true := by decide

/-- FL7. -/
theorem test_call_overflow : steps (at' 0x200 0x2200 ({ base with sp := 16 }))
    (fun t => faultIs t 4 0x200 16 && t.sp == 16) = true := by decide

/-- FL5. -/
theorem test_ret : steps (at' 0x300 0x00EE ({ base with sp := 1, stack := base.stack.set 0 0x202 }))
    (fun t => t.sp == 0 && t.pc == 0x202 && t.stack[0] == 0x202) = true := by decide

/-- FL8. -/
theorem test_ret_underflow : steps (at' 0x200 0x00EE base)
    (fun t => faultIs t 5 0x200 0 && t.sp == 0) = true := by decide

/-- FL10. -/
theorem test_jpV0_no_mask : steps (at' 0x202 0xBFFF (withRegs [(0, 0xFF)] base))
    (fun t => t.pc == 0x10FE) = true := by decide

/-- FL11. -/
theorem test_jpV0_is_v0 : steps (at' 0x200 0xB300 (withRegs [(3, 0xFF)] base))
    (fun t => t.pc == 0x300) = true := by decide

/-- FL12. -/
theorem test_seImm_skip : steps (at' 0x200 0x312A (withRegs [(1, 0x2A)] base))
    (fun t => t.pc == 0x204) = true := by decide

/-- FL13. -/
theorem test_seImm_stay : steps (at' 0x200 0x312A (withRegs [(1, 0x2B)] base))
    (fun t => t.pc == 0x202) = true := by decide

/-- FL14. -/
theorem test_sneImm_stay : steps (at' 0x200 0x412A (withRegs [(1, 0x2A)] base))
    (fun t => t.pc == 0x202) = true := by decide

/-- FL15. -/
theorem test_sneImm_skip : steps (at' 0x200 0x412A (withRegs [(1, 0x2B)] base))
    (fun t => t.pc == 0x204) = true := by decide

/-- FL16. -/
theorem test_seReg_skip : steps (at' 0x200 0x5120 (withRegs [(1, 7), (2, 7)] base))
    (fun t => t.pc == 0x204) = true := by decide

/-- FL17. -/
theorem test_seReg_stay : steps (at' 0x200 0x5120 (withRegs [(1, 7), (2, 8)] base))
    (fun t => t.pc == 0x202) = true := by decide

/-- FL19. -/
theorem test_sneReg_skip : steps (at' 0x200 0x9120 (withRegs [(1, 7), (2, 8)] base))
    (fun t => t.pc == 0x204) = true := by decide

/-- FL21. -/
theorem test_sneReg_self : steps (at' 0x200 0x9110 (withRegs [(1, 7)] base))
    (fun t => t.pc == 0x202) = true := by decide

/-- AL2: VF is an ordinary register. -/
theorem test_ldImm_vf : steps (at' 0x200 0x6F55 (withRegs [(15, 1)] base))
    (fun t => t.reg 15 == 0x55 && t.pc == 0x202) = true := by decide

/-- AL4. -/
theorem test_addImm_no_carry_flag : steps (at' 0x200 0x7380 (withRegs [(3, 0x80), (15, 1)] base))
    (fun t => t.reg 3 == 0 && t.reg 15 == 1) = true := by decide

/-- AL6. -/
theorem test_addImm_on_vf : steps (at' 0x200 0x7F02 (withRegs [(15, 0xFF)] base))
    (fun t => t.reg 15 == 1) = true := by decide

/-- AL7. -/
theorem test_ldReg : steps (at' 0x200 0x8120 (withRegs [(2, 0x9C), (15, 1)] base))
    (fun t => t.reg 1 == 0x9C && t.reg 2 == 0x9C && t.reg 15 == 1) = true := by decide

/-- AL8. -/
theorem test_or : steps (at' 0x200 0x8121 (withRegs [(1, 0xF0), (2, 0x0F), (15, 1)] base))
    (fun t => t.reg 1 == 0xFF && t.reg 15 == 1) = true := by decide

/-- AL9. -/
theorem test_and : steps (at' 0x200 0x8122 (withRegs [(1, 0xF0), (2, 0x3C), (15, 1)] base))
    (fun t => t.reg 1 == 0x30 && t.reg 15 == 1) = true := by decide

/-- AL10. -/
theorem test_xor : steps (at' 0x200 0x8123 (withRegs [(1, 0xF0), (2, 0x3C), (15, 1)] base))
    (fun t => t.reg 1 == 0xCC && t.reg 15 == 1) = true := by decide

/-- AL14: 255 is no overflow. -/
theorem test_addReg_255 : steps (at' 0x200 0x8124 (withRegs [(1, 0x7F), (2, 0x80), (15, 1)] base))
    (fun t => t.reg 1 == 0xFF && t.reg 15 == 0) = true := by decide

/-- AL18: the carry replaces the sum. -/
theorem test_addReg_into_vf : steps (at' 0x200 0x8F14 (withRegs [(15, 0xFF), (1, 2)] base))
    (fun t => t.reg 15 == 1) = true := by decide

/-- AL22. -/
theorem test_sub_borrow : steps (at' 0x200 0x8125 (withRegs [(1, 3), (2, 5), (15, 1)] base))
    (fun t => t.reg 1 == 0xFE && t.reg 15 == 0) = true := by decide

/-- AL23: equal means no borrow. -/
theorem test_sub_equal : steps (at' 0x200 0x8125 (withRegs [(1, 5), (2, 5)] base))
    (fun t => t.reg 1 == 0 && t.reg 15 == 1) = true := by decide

/-- AL31. -/
theorem test_shr_ignores_y : steps (at' 0x200 0x8126 (withRegs [(1, 1), (2, 0xAA)] base))
    (fun t => t.reg 1 == 0 && t.reg 15 == 1 && t.reg 2 == 0xAA) = true := by decide

/-- AL36: the flag wins. -/
theorem test_shr_vf : steps (at' 0x200 0x8F06 (withRegs [(15, 2)] base))
    (fun t => t.reg 15 == 0) = true := by decide

/-- AL27. -/
theorem test_subn : steps (at' 0x200 0x8127 (withRegs [(1, 3), (2, 5)] base))
    (fun t => t.reg 1 == 2 && t.reg 15 == 1) = true := by decide

/-- AL30. -/
theorem test_subn_borrow : steps (at' 0x200 0x8127 (withRegs [(1, 1), (15, 1)] base))
    (fun t => t.reg 1 == 0xFF && t.reg 15 == 0) = true := by decide

/-- AL37. -/
theorem test_shl_ignores_y : steps (at' 0x200 0x812E (withRegs [(1, 0x80), (2, 0xAA)] base))
    (fun t => t.reg 1 == 0 && t.reg 15 == 1 && t.reg 2 == 0xAA) = true := by decide

/-- AL38. -/
theorem test_shl_no_carry : steps (at' 0x200 0x812E (withRegs [(1, 0x40), (15, 1)] base))
    (fun t => t.reg 1 == 0x80 && t.reg 15 == 0) = true := by decide

/-- AL42: the byte of base is 0xA7. -/
theorem test_rnd : steps (at' 0x200 0xC30F (withRegs [(15, 1)] base))
    (fun t => t.reg 3 == 0x07 && t.reg 15 == 1) = true := by decide

/-- IM1. -/
theorem test_ldI : steps (at' 0x200 0xA123 (withI 0x0FFF base))
    (fun t => t.idx == 0x123) = true := by decide

/-- IM2a. -/
theorem test_addI_no_flag : steps (at' 0x200 0xF01E (withI 0x0FFF (withRegs [(0, 1)] base)))
    (fun t => t.idx == 0x1000 && t.reg 15 == 0) = true := by decide

/-- IM2b. -/
theorem test_addI_wraps : steps (at' 0x200 0xF01E (withI 0xFFFF (withRegs [(0, 1)] base)))
    (fun t => t.idx == 0) = true := by decide

/-- IM4b. -/
theorem test_ldF_no_mask : steps (at' 0x200 0xF229 (withRegs [(2, 0xFF)] base))
    (fun t => t.idx == 0x4FB) = true := by decide

/-- IM3c: the last legal address. -/
theorem test_ldB : steps (at' 0x200 0xF333 (withI 0xFFD (withRegs [(3, 0x7B)] base)))
    (fun t => t.readByte 0xFFD == 1 && t.readByte 0xFFE == 2 && t.readByte 0xFFF == 3 && t.idx == 0xFFD) = true := by decide

/-- IM3d. -/
theorem test_ldB_oob : steps (at' 0x200 0xF333 (withI 0xFFE (withRegs [(3, 0x7B)] base)))
    (fun t => faultIs t 3 0x200 4096 && t.readByte 0xFFE == 0 && t.readByte 0xFFF == 0) = true := by decide

/-- IM5. -/
theorem test_stRegs : steps (at' 0x200 0xF355 (withI 0x400 (withRegs [(0, 0x11), (1, 0x22), (2, 0x33), (3, 0x44), (4, 0x55)] base)))
    (fun t => t.readByte 0x400 == 0x11 && t.readByte 0x403 == 0x44 && t.readByte 0x404 == 0 && t.idx == 0x400) = true := by decide

/-- IM6d: the font area is writable. -/
theorem test_stRegs_font : steps (at' 0x200 0xF055 (withRegs [(0, 0xAA)] base))
    (fun t => t.readByte 0 == 0xAA && t.readByte 1 == 0x90) = true := by decide

/-- IM5a. -/
theorem test_ldRegs : steps (at' 0x200 0xF365 (withI 0x400 (withMem 0x400 [0x11, 0x22, 0x33, 0x44, 0x55] base)))
    (fun t => t.reg 0 == 0x11 && t.reg 3 == 0x44 && t.reg 4 == 0 && t.idx == 0x400) = true := by decide

/-- IM6c. -/
theorem test_ldRegs_no_wrap : steps (at' 0x200 0xF065 (withI 0xFFFF base))
    (fun t => faultIs t 2 0x200 65535 && t.reg 0 == 0) = true := by decide

/-- DR10. -/
theorem test_cls : steps (at' 0x200 0x00E0 ({ base with fb := base.fb.toggle 0 0 }))
    (fun t => !t.fb.cell 0 0) = true := by decide

/-- DR3: both wraps. -/
theorem test_drw_wrap : steps (at' 0x200 0xD012 (withI 0x300 (withMem 0x300 [0xFF, 0x81] (withRegs [(0, 0x3F), (1, 0x1F)] base))))
    (fun t => t.fb.cell 31 63 && t.fb.cell 31 6 && !t.fb.cell 31 7 && t.fb.cell 0 63 && t.fb.cell 0 6 && !t.fb.cell 0 0 && t.reg 15 == 0) = true := by decide

/-- DR5: bit 7 is the left pixel. -/
theorem test_drw_collision : steps (at' 0x200 0xD011 (withI 0x300 (withMem 0x300 [0xC0] { base with fb := base.fb.toggle 0 0 })))
    (fun t => !t.fb.cell 0 0 && t.fb.cell 0 1 && !t.fb.cell 0 7 && t.reg 15 == 1) = true := by decide

/-- KT1. -/
theorem test_skp : steps (at' 0x200 0xE49E (withRegs [(4, 15)] { base with key := base.key.set 15 true }))
    (fun t => t.pc == 0x204) = true := by decide

/-- KT5. -/
theorem test_skp_oob : steps (at' 0x202 0xE49E (withRegs [(4, 16)] base))
    (fun t => faultIs t 6 0x202 16) = true := by decide

/-- KT3. -/
theorem test_sknp : steps (at' 0x200 0xE4A1 (withRegs [(4, 15)] base))
    (fun t => t.pc == 0x204) = true := by decide

/-- KT5a. -/
theorem test_sknp_oob : steps (at' 0x202 0xE4A1 (withRegs [(4, 255)] base))
    (fun t => faultIs t 6 0x202 255) = true := by decide

/-- KT6. -/
theorem test_ldVxK_waits : steps (at' 0x200 0xF00A (withRegs [(0, 0x33)] base))
    (fun t => t.pc == 0x200 && t.reg 0 == 0x33) = true := by decide

/-- KT7. -/
theorem test_ldVxK_least : steps (at' 0x200 0xF00A ({ base with key := (base.key.set 9 true).set 7 true }))
    (fun t => t.reg 0 == 7 && t.pc == 0x202) = true := by decide

/-- KT9. -/
theorem test_ldVxDt : steps (at' 0x200 0xF507 ({ base with dt := 0x2A }))
    (fun t => t.reg 5 == 0x2A && t.dt == 0x2A) = true := by decide

/-- KT11. -/
theorem test_ldDtVx : steps (at' 0x200 0xF515 ({ base with dt := 9 }))
    (fun t => t.dt == 0) = true := by decide

/-- KT12. -/
theorem test_ldStVx : steps (at' 0x200 0xF518 (withRegs [(5, 2)] base))
    (fun t => t.st == 2 && t.soundActive) = true := by decide

/-! ### The host's operations (95_test_vectors.md 2.8) -/

/-- The operation answers a next state that passes the check. -/
def performs (op : HostOp) (s : State) (p : OpResult → State → Bool) : Bool :=
  match perform op s with
  | .next (r, t) => p r t
  | .fault _ => false
  | .refused _ => false

/-- CY2: the event UNDEC. -/
theorem test_step_reports_undec :
    performs (.step 0) (at' 0x200 0x0000 base) (fun r t => r == .doneUndec 0x0000 0x200 && t.pc == 0x202) = true := by decide

/-- FL8: the result FAULT. -/
theorem test_step_reports_fault :
    performs (.step 0) (at' 0x200 0x00EE base) (fun r t => r == .fault .stackUnderflow && t.pc == 0x200) = true := by decide

/-- HO1, HO2. -/
theorem test_tick : performs .tick { base with dt := 3, st := 0 } (fun r t => r == .nothing && t.dt == 2 && t.st == 0) = true := by
  decide

/-- HO5, HO6: a level, not a toggle. -/
theorem test_key : performs (.key 3 true) { base with key := base.key.set 3 true } (fun r t => r == .ok && t.key[3]) = true := by
  decide

/-- HO7. -/
theorem test_key_invalid :
    performs (.key 16 true) base (fun r t => r == .error .keyIndexInvalid && t.key == base.key) = true := by decide

/-- HO11. -/
theorem test_load : performs (.load [0x11, 0x22]) (withMem 0x200 [0xAA, 0xBB, 0xCC, 0xDD] base) (fun r t => r == .ok &&
    t.readByte 0x200 == 0x11 && t.readByte 0x201 == 0x22 && t.readByte 0x202 == 0xCC && t.pc == 0x200) = true := by decide

/-- HO9. -/
theorem test_load_too_large : perform (.load (List.replicate 3585 0)) base = .next (.error .loadTooLarge, base) := by
  rw [perform, test_wf_image.2]
  rfl

/-- HO13. -/
theorem test_reset : performs .reset (withRegs [(3, 7)] (withMem 0x10 [0x55] { base with status := .faulted, pc := 0x300 }))
    (fun r t => r == .nothing && t.status == .running && t.pc == 0x200 && t.reg 3 == 0 && t.readByte 0x10 == 0x10) = true := by
  decide

/-- The run under this schedule answers results and a state that pass the check. -/
def schedules (ops : List HostOp) (s : State) (p : List OpResult → State → Bool) : Bool :=
  match runSchedule ops s with
  | .next (rs, t) => p rs t
  | .fault _ => false
  | .refused _ => false

/-- S11 without its loop: FX15 of 3, four TICKs, then FX07 reads 0. -/
theorem test_schedule_ticks : schedules [.step 0, .tick, .tick, .tick, .tick, .step 0]
    (at' 0x200 0xF115 (withRegs [(1, 3), (2, 9)] (at' 0x202 0xF207 base)))
    (fun rs t => rs == [.done, .nothing, .nothing, .nothing, .nothing, .done] && t.reg 1 == 3 && t.reg 2 == 0 && t.dt == 0) = true := by decide

/-- A wait for a key, the key between two STEPs, the wait over (70_reset_and_hazards.md R158 (3)). -/
theorem test_schedule_key : schedules [.step 0, .key 7 true, .step 0] (at' 0x200 0xF00A base)
    (fun rs t => rs == [.done, .ok, .done] && t.reg 0 == 7 && t.pc == 0x202) = true := by decide

/-- A batch answers every STEP's result and stops at the first FAULT (R64 to R66): CY2, then FL8. -/
theorem test_cycles : (match runCycles [1, 2, 3] (at' 0x200 0x0000 (at' 0x202 0x00EE base)) with
    | .next (rs, t) => rs == [.doneUndec 0x0000 0x200, .fault .stackUnderflow] && t.pc == 0x202 && t.rnd == 2
    | .fault _ | .refused _ => false) = true := by decide

/-- No request. -/
def pins : InPins where
  rst := false
  step := false
  rnd := 0
  tick := false
  keyWe := false
  keyIdx := 0
  keyVal := false
  ldWe := false
  ldOff := 0
  ldData := 0
  fbAddr := 0

/-- The framebuffer's linear index is `64 * y + x` (HO14, R27). -/
theorem test_fb_address : (outPins { pins with fbAddr := 0x7FF } .nothing { base with fb := base.fb.toggle 31 63 }).fbQ = true := by decide

/-! ### What the model places and runs -/

/-- The word is stored where the next step fetches it, and that step runs it (6A05 of S10). -/
theorem test_with_fetch_word : steps (base.withFetchWord 16 0x6A05) (fun t => t.reg 0xA == 5 && t.pc == 0x202) = true := by
  decide

/-- A write of what an unlisted address reads as takes the cell away again (log 8). -/
theorem test_canonical_write : ((base.writeBytes 0x300 [7]).writeBytes 0x300 [0]).mem = [] ∧
    (base.writeBytes 0x10 [0x10]).mem = [] := by decide

/-! ### Witnesses: states and operands that meet the hypotheses of the obligations -/

/-- The bytes at PC decode to `i`. -/
abbrev Fetches (s : State) (i : Instr) : Prop :=
  decode (wordOfBytes (s.readByte s.pc.toNat) (s.readByte (s.pc.toNat + 1))) = .ok i

theorem witness_encode_of_decode : decode 0x8AB4 = .ok (.addReg 0xA 0xB) := rfl

/-- DecodeFollowsMaskAndMatch: a word in a row, and a word in none. -/
theorem witness_mask_match : (0xFF65 : Word) &&& (Instr.ldRegs 15).rowMask = (Instr.ldRegs 15).rowMatch ∧
    ∀ i : Instr, (0x00E1 : Word) &&& i.rowMask ≠ i.rowMatch := by
  refine ⟨by decide, fun i => ?_⟩
  cases i <;> simp [Instr.rowMask, Instr.rowMatch]

theorem witness_step_runs : (at' 0xFFE 0x8124 base).status = .running ∧ (at' 0xFFE 0x8124 base).pc.toNat ≤ 4094 ∧
    Fetches (at' 0xFFE 0x8124 base) (.addReg 1 2) := by decide

theorem witness_fetch : ({ base with pc := 0xFFE } : State).pc.toNat ≤ 4094 := by decide

theorem witness_unrecognized : (at' 0xFFE 0x5121 base).status = .running ∧ (at' 0xFFE 0x5121 base).pc.toNat ≤ 4094 ∧
    (0x5121 : Word) = wordOfBytes ((at' 0xFFE 0x5121 base).readByte 0xFFE) ((at' 0xFFE 0x5121 base).readByte 0xFFF) ∧
    decode 0x5121 = .error (.unrecognized 0x5121) := by decide

theorem witness_fetch_outside : ({ base with pc := 0xFFF } : State).status = .running ∧
    4094 < ({ base with pc := 0xFFF } : State).pc.toNat := by decide

theorem witness_faulted : ({ base with status := .faulted } : State).status = .faulted ∧ HostOp.tick ≠ .reset := by decide

/-- FaultsArePrecise: the step of FL8. -/
theorem witness_faults_precise : (at' 0x200 0x00EE base).status = .running ∧
    steps (at' 0x200 0x00EE base) (fun t => t.status == .faulted) = true := by decide

/-- FaultsAreThoseOfTheTable: no fault, then each of the six causes at its boundary. -/
theorem witness_no_fault : expectedFault (at' 0xFFE 0xF265 (withI 0xFFD base)) = none ∧ base.status = .running := by decide
theorem witness_fault_fetch : expectedFault { base with pc := 0xFFF } = some (.fetchOob, 4095) := by decide
theorem witness_fault_read : expectedFault (at' 0x200 0xF265 (withI 0xFFE base)) = some (.dataReadOob, 4096) := by decide
theorem witness_fault_draw : expectedFault (at' 0x200 0xD012 (withI 0xFFF base)) = some (.dataReadOob, 4096) := by decide
theorem witness_fault_write : expectedFault (at' 0x200 0xF333 (withI 0xFFE base)) = some (.dataWriteOob, 4096) := by decide
theorem witness_fault_store : expectedFault (at' 0x200 0xF255 (withI 0xFFE base)) = some (.dataWriteOob, 4096) := by decide
theorem witness_fault_overflow : expectedFault (at' 0x200 0x2200 { base with sp := 16 }) = some (.stackOverflow, 16) := by decide
theorem witness_fault_underflow : expectedFault (at' 0x200 0x00EE base) = some (.stackUnderflow, 0) := by decide
theorem witness_fault_key : expectedFault (at' 0x200 0xE49E (withRegs [(4, 16)] base)) = some (.keyIndexOob, 16) := by decide
theorem witness_fault_keyn : expectedFault (at' 0x200 0xE4A1 (withRegs [(4, 16)] base)) = some (.keyIndexOob, 16) := by decide

/-- OnlyTheListedInstructionsFault: `exec` of RET on an empty stack. -/
theorem witness_listed_fault : base.status = .running ∧
    ∃ t, exec .ret base = .next t ∧ t.status = .faulted := ⟨rfl, _, rfl, rfl⟩

/-- OnlyRandomReadsTheInput. -/
theorem witness_not_random : (∀ x nn, Instr.cls ≠ .rnd x nn) ∧ ∃ t, exec .cls base = .next t :=
  ⟨fun _ _ => Instr.noConfusion, _, rfl⟩

/-- The flag clauses: carry, no carry at the sum 255, borrow, no borrow on equal operands, both bits shifted out. -/
theorem witness_flags : 255 < (0xFF : Byte).toNat + (0x01 : Byte).toNat ∧ ¬255 < (0x7F : Byte).toNat + (0x80 : Byte).toNat ∧
    ¬(0x05 : Byte).toNat ≤ (0x03 : Byte).toNat ∧ (0x05 : Byte).toNat ≤ (0x05 : Byte).toNat ∧
    (0x01 : Byte).toNat % 2 = 1 ∧ ¬(0x02 : Byte).toNat % 2 = 1 ∧ 128 ≤ (0x80 : Byte).toNat ∧
    ¬128 ≤ (0x7F : Byte).toNat ∧ (1 : RegIdx) ≠ 15 := by decide

/-- RegistersChangeOnlyAsListed: a destination, a flag and a loaded register that change. -/
theorem witness_registers_change :
    (∃ t, exec (.ldImm 3 7) base = .next t ∧ t.reg 3 ≠ base.reg 3) ∧
    (∃ t, exec (.sub 1 2) base = .next t ∧ t.reg 15 ≠ base.reg 15) ∧
    ∃ t, exec (.ldRegs 1) base = .next t ∧ t.reg 1 ≠ base.reg 1 :=
  ⟨⟨_, rfl, by decide⟩, ⟨_, rfl, by decide⟩, _, rfl, by decide⟩

/-- CALL with the last entry free, with no entry free; RET from a full, from an empty stack. -/
theorem witness_stack : ({ base with sp := 15 } : State).sp.val < 16 ∧ ({ base with sp := 16 } : State).sp = 16 ∧
    0 < ({ base with sp := 16 } : State).sp.val ∧ 0 < ({ base with sp := 1 } : State).sp.val ∧ base.sp = 0 := by decide

/-- Skips: equal and unequal. -/
theorem witness_skips : (withRegs [(1, 7)] base).reg 1 = 7 ∧ (withRegs [(1, 7)] base).reg 1 ≠ 8 ∧
    (withRegs [(1, 7)] base).reg 1 ≠ (withRegs [(1, 7)] base).reg 2 ∧
    (withRegs [(1, 7)] base).reg 1 = (withRegs [(1, 7)] base).reg 1 := by decide

/-- JumpToSelfIsStable: at 0x200, and at the last address of a fetch. -/
theorem witness_terminal : (at' 0x200 0x1200 base).terminal ∧ (at' 0xFFE 0x1FFE base).terminal :=
  ⟨⟨rfl, by decide, by decide⟩, rfl, by decide, by decide⟩

/-- BcdStoresThreeDigits: the last address that fits, and the first that does not. -/
theorem witness_bcd : (withI 0xFFD base).ea 2 ≤ 4095 ∧ 4095 < (withI 0xFFE base).ea 2 ∧ 0xFFC < (withI 0xFFD base).ea 0 := by decide

/-- StoreBlockStoresTheRange, LoadBlockLoadsTheRange, StoreThenLoadRestoresRegisters: both sides of the bound, a register
inside the range and one above it. -/
theorem witness_block : (withI 0xFFD base).ea (2 : RegIdx).val ≤ 4095 ∧ 4095 < (withI 0xFFE base).ea (2 : RegIdx).val ∧
    (2 : RegIdx).val ≤ (2 : RegIdx).val ∧ (2 : RegIdx).val < (3 : RegIdx).val ∧ 0xFFC < (withI 0xFFD base).ea 0 := by decide

/-- StoreIsSeenByTheNextFetch, the fetch at PC `p` and the last stored byte at `I + n`: the store over both bytes, over
the low byte alone, over the high byte alone, over neither. FX55 of V0, V1 and FX33 share the shape. -/
theorem witness_self_modifying :
    let s (p i : Word) : State := withI i { base with pc := p }
    (s 0xFFE 0xFFE).pc.toNat ≤ 4094 ∧ (s 0xFFE 0xFFE).ea (1 : RegIdx).val ≤ 4095 ∧ (s 0xFFD 0xFFD).ea 2 ≤ 4095 ∧
    ((s 0xFFE 0xFFE).pc.toNat = (s 0xFFE 0xFFE).ea 0 ∧ (s 0xFFE 0xFFE).pc.toNat + 1 = (s 0xFFE 0xFFE).ea 1) ∧
    ((s 0x200 0x201).pc.toNat < (s 0x200 0x201).ea 0 ∧ (s 0x200 0x201).pc.toNat + 1 = (s 0x200 0x201).ea 0) ∧
    ((s 0x200 0x1FF).pc.toNat = (s 0x200 0x1FF).ea 1 ∧ (s 0x200 0x1FF).ea 1 < (s 0x200 0x1FF).pc.toNat + 1) ∧
    ((s 0x200 0x1FE).pc.toNat = (s 0x200 0x1FE).ea 2 ∧ (s 0x200 0x1FE).ea 2 < (s 0x200 0x1FE).pc.toNat + 1) ∧
    (s 0x200 0x202).pc.toNat + 1 < (s 0x200 0x202).ea 0 := by decide

/-- A one-row sprite 0x80 at (0, 0), its byte at the last address of memory. -/
def sprite : State := withI 0xFFF (withMem 0xFFF [0x80] base)

/-- DrawXorsTheSprite: the rows read, in range; a lit cell aimed at; no lit cell aimed at; no row; a row past the end. -/
theorem witness_draw :
    [0x80] = (List.range (1 : RowCount).val).map (fun r => sprite.readByte (sprite.ea r)) ∧
    sprite.ea ((1 : RowCount).val - 1) ≤ 4095 ∧
    (∃ r c, ({ sprite with fb := sprite.fb.toggle 0 0 } : State).fb.cell r c = true ∧
      spriteBit (sprite.reg 0) (sprite.reg 1) [0x80] r c = true) ∧
    (∀ r c, sprite.fb.cell r c = true → spriteBit (sprite.reg 0) (sprite.reg 1) [0x80] r c = false) ∧
    (0 : RowCount).val = 0 ∧ 0 < (2 : RowCount).val ∧ 4095 < sprite.ea ((2 : RowCount).val - 1) := by
  refine ⟨by decide, by decide, ⟨0, 0, by decide, by decide⟩, fun r c h => ?_, by decide, by decide, by decide⟩
  have : sprite.fb.cell r c = false := Screen.cell_blank r c
  rw [this] at h
  cases h

/-- DrawingTwiceRestoresTheScreen: the same sprite, over a dark screen. -/
theorem witness_draw_twice : (0 : RegIdx) ≠ 15 ∧ (1 : RegIdx) ≠ 15 ∧
    [0x80] = (List.range (1 : RowCount).val).map (fun r => sprite.readByte (sprite.ea r)) ∧
    sprite.ea ((1 : RowCount).val - 1) ≤ 4095 ∧
    (∀ r c, spriteBit (sprite.reg 0) (sprite.reg 1) [0x80] r c = true → sprite.fb.cell r c = false) ∧
    ∃ r c, spriteBit (sprite.reg 0) (sprite.reg 1) [0x80] r c = true :=
  ⟨by decide, by decide, by decide, by decide, fun r c _ => Screen.cell_blank r c, 0, 0, by decide⟩

/-- OnlyClearDrawAndResetChangeTheScreen: a step that changes the screen, and an operation that is neither RESET nor STEP. -/
theorem witness_screen_change :
    (∃ t, step (at' 0x200 0x00E0 { base with fb := base.fb.toggle 0 0 }) = .next t ∧
      t.fb ≠ (at' 0x200 0x00E0 { base with fb := base.fb.toggle 0 0 }).fb) ∧
    HostOp.tick ≠ .reset ∧ (∀ b, HostOp.tick ≠ .step b) ∧ ∃ r t, perform .tick base = .next (r, t) := by
  refine ⟨⟨_, rfl, fun h => ?_⟩, by decide, fun _ => HostOp.noConfusion, _, _, rfl⟩
  have := congrArg (fun fb => Screen.cell fb 0 0) h
  revert this
  decide

/-- KeySkipsReadTheFlag: the last key, pressed and released, and the first byte that names none. -/
theorem witness_key_skips : ((withRegs [(4, 15)] base).reg 4).toNat < 16 ∧ base.key[15] = false ∧
    (base.key.set 15 true)[15] = true ∧ 15 < ((withRegs [(4, 16)] base).reg 4).toNat := by decide

/-- KeyWaitTakesTheLeastKey: key 7 the least pressed; no key, at the last address of a fetch. -/
theorem witness_key_wait : (((base.key.set 9 true).set 7 true)[(7 : Fin 16).val] = true ∧
      ∀ j : Fin 16, j.val < 7 → ((base.key.set 9 true).set 7 true)[j.val] = false) ∧
    (∀ k : Fin 16, (at' 0xFFE 0xF00A base).key[k.val] = false) ∧ (at' 0xFFE 0xF00A base).pc.toNat ≤ 4094 ∧
    wordOfBytes ((at' 0xFFE 0xF00A base).readByte 0xFFE) ((at' 0xFFE 0xF00A base).readByte 0xFFF) = encode (.ldVxK 0) := by
  decide

/-- KeyOperationSetsOneFlag, LoadCopiesTheImage, ReadFbIsRowMajor, ResetGivesEveryValue: both sides of each bound. -/
theorem witness_bounds : 15 < 16 ∧ 16 ≤ 16 ∧ (List.replicate 3584 (0 : Byte)).length ≤ 3584 ∧
    3584 < (List.replicate 3585 (0 : Byte)).length ∧ 3583 < (List.replicate 3584 (0 : Byte)).length ∧
    0x1FF < 0x200 ∧ 0x200 + [(0x11 : Byte)].length ≤ 0x201 ∧ 31 < 32 ∧ 63 < 64 ∧ 79 < 80 ∧ 80 ≤ 80 := by
  rw [List.length_replicate, List.length_replicate]
  decide

/-- EdgeServesAtMostOneRequest: no request, one operation, one byte on each side of the bound, two requests. -/
theorem witness_edge : pins.requests = [] ∧ { pins with tick := true }.requests = [.op .tick] ∧
    { pins with ldWe := true, ldOff := 3583 }.requests = [.loadByte 3583 0] ∧ (3583 : Addr12).toNat < 3584 ∧
    { pins with ldWe := true, ldOff := 3584 }.requests = [.loadByte 3584 0] ∧ 3584 ≤ (3584 : Addr12).toNat ∧
    2 ≤ { pins with tick := true, step := true }.requests.length := by decide

/-- EachPartHasItsWriters: an instruction that changes each part an instruction can change. -/
theorem witness_writers_registers :
    (∃ t, exec (.ldImm 3 7) base = .next t ∧ t.reg 3 ≠ base.reg 3) ∧
    (∃ t, exec (.ldI 0x300) base = .next t ∧ t.idx ≠ base.idx) ∧
    (∃ t, exec (.ldDtVx 1) (withRegs [(1, 5)] base) = .next t ∧ t.dt ≠ base.dt) ∧
    (∃ t, exec (.ldStVx 1) (withRegs [(1, 5)] base) = .next t ∧ t.st ≠ base.st) ∧
    ∃ t, exec (.rnd 0 0) base = .next t ∧ ¬Part.input.same base t :=
  ⟨⟨_, rfl, by decide⟩, ⟨_, rfl, by decide⟩, ⟨_, rfl, by decide⟩, ⟨_, rfl, by decide⟩, _, rfl, fun h => absurd h.2 (by decide)⟩

theorem witness_writers_flow :
    (∃ t, exec (.jp 0x300) base = .next t ∧ t.pc ≠ base.pc) ∧
    (∃ t, exec .ret base = .next t ∧ t.pc ≠ base.pc ∧ ¬Part.fault.same base t) ∧
    ∃ t, exec (.call 0x300) base = .next t ∧ t.stack ≠ base.stack ∧ t.sp ≠ base.sp := by
  refine ⟨⟨_, rfl, by decide⟩, ⟨_, rfl, by decide, fun h => absurd h.1 (by decide)⟩, _, rfl, fun h => ?_, by decide⟩
  have := congrArg (fun v => v[0]) h
  revert this
  decide

theorem witness_writers_memory :
    (∃ t, exec (.stRegs 0) (withI 0x300 (withRegs [(0, 5)] base)) = .next t ∧ t.readByte 0x300 ≠ base.readByte 0x300) ∧
    ∃ t, exec .cls { base with fb := base.fb.toggle 0 0 } = .next t ∧
      t.fb.cell 0 0 ≠ ({ base with fb := base.fb.toggle 0 0 } : State).fb.cell 0 0 :=
  ⟨⟨_, rfl, by decide⟩, _, rfl, by decide⟩

/-- The invariant holds of a RUNNING state with a stored byte and a return address, and of a FAULTED state. -/
theorem witness_invariant :
    (withMem 0xFFF [0x80] { base with sp := 1, stack := base.stack.set 0 0x1000, pc := 0x10FE }).Inv ∧
    ({ base with status := .faulted, fcause := .fetchOob, pc := 0x1000, fpc := 0x1000, finfo := 4096 } : State).Inv := by
  refine ⟨⟨by decide, by decide, by decide, ⟨rfl, rfl, rfl⟩⟩, ⟨by decide, by decide, by decide, ?_⟩⟩
  simp [State.RecordTrue]

/-- EveryStepKeepsTheInvariant and EveryOperationKeepsTheInvariant: a step, an operation and a schedule from such a state. -/
theorem witness_invariant_step : base.Inv ∧ (∃ t, step base = .next t) ∧ (∃ r t, perform .tick base = .next (r, t)) ∧
    ∃ rs t, runSchedule [.tick, .reset] base = .next (rs, t) :=
  ⟨⟨by decide, by decide, by decide, ⟨rfl, rfl, rfl⟩⟩, ⟨_, rfl⟩, ⟨_, _, rfl⟩, _, _, rfl⟩

/-- BatchEqualsItsSteps: a batch cut short by a FAULT, and one that is not. -/
theorem witness_batch :
    (match runCycles [0, 0] (at' 0x200 0x00EE base) with | .next (rs, _) => rs.length == 1 | _ => false) = true ∧
    (match runCycles [0, 0] (at' 0x200 0x1200 base) with | .next (rs, _) => rs.length == 2 | _ => false) = true := by decide

/-- DelayUnderEverySchedule, first clause: operations between two STEPs. -/
theorem witness_between : ∀ op ∈ [HostOp.tick, .key 3 true, .load [1], .readFb, .tick], betweenSteps op = true := by decide

/-- FX07 at 0x200 and a jump back to it. -/
structure Polling (s : State) : Prop where
  running : s.status = .running
  pc : s.pc = 0x200 ∨ s.pc = 0x202
  poll : wordOfBytes (s.readByte 0x200) (s.readByte 0x201) = 0xF107
  back : wordOfBytes (s.readByte 0x202) (s.readByte 0x203) = 0x1200

theorem Polling.fetch {s : State} (h : Polling s) : s.pc = 0x200 ∧ s.fetchWord = some 0xF107 ∨
    s.pc = 0x202 ∧ s.fetchWord = some 0x1200 := by
  rcases h.pc with hp | hp
  · exact .inl ⟨hp, by simpa [State.fetchWord, hp] using h.poll⟩
  · exact .inr ⟨hp, by simpa [State.fetchWord, hp] using h.back⟩

theorem Polling.keeps {s t : State} {op : HostOp} {r : OpResult} (ho : op = .tick ∨ ∃ b, op = .step b) (h : Polling s)
    (hp : perform op s = .next (r, t)) : Polling t := by
  rcases ho with rfl | ⟨b, rfl⟩
  · cases hp
    exact ⟨h.running, h.pc, h.poll, h.back⟩
  · rcases h.fetch with ⟨ha, hf⟩ | ⟨ha, hf⟩
    · have : step (s.withRnd b) = .next ((s.withRnd b).advance.setReg 1 s.dt) := step_of_instr (s := s.withRnd b) h.running hf rfl
      rw [perform_step this] at hp
      cases hp
      exact ⟨h.running, .inr (by simp [State.advance, ha]), by simpa [State.readByte] using h.poll,
        by simpa [State.readByte] using h.back⟩
    · have : step (s.withRnd b) = .next ((s.withRnd b).advance.jump 0x200) := step_of_instr (s := s.withRnd b) h.running hf rfl
      rw [perform_step this] at hp
      cases hp
      exact ⟨h.running, .inl rfl, h.poll, h.back⟩

theorem Polling.delayNotSet {s : State} (h : Polling s) {ops : List HostOp} (ho : ∀ op ∈ ops, op = .tick ∨ ∃ b, op = .step b) :
    DelayNotSet ops s := by
  rintro pre b post rs u x rfl hr -
  have : Polling u := runSchedule_keeps (fun op hm _ _ _ hs hp => hs.keeps (ho op (by simp [hm])) hp) h hr
  rcases this.fetch with ⟨-, hf⟩ | ⟨-, hf⟩ <;> rw [hf] <;> revert x <;> decide

def polling : State := at' 0x200 0xF107 (at' 0x202 0x1200 { base with dt := 3 })

theorem polling_polls : Polling polling := ⟨rfl, .inl rfl, by decide, by decide⟩

/-- Second clause: a schedule with STEPs. -/
theorem witness_delay_schedule : HostOp.reset ∉ [HostOp.step 0, .tick, .step 1, .step 2] ∧
    DelayNotSet [.step 0, .tick, .step 1, .step 2] polling :=
  ⟨by decide, polling_polls.delayNotSet (by simp)⟩

/-- STEPs and TICKs in turn. -/
def stepsAndTicks (n : Nat) : HostOp := if n % 2 = 0 then .step 0 else .tick

/-- Third clause: an endless schedule, STEPs and TICKs in turn; and a STEP at an FX07. -/
theorem witness_endless : TicksKeepArriving stepsAndTicks ∧ StepsKeepComing stepsAndTicks ∧
    (∀ n, DelayNotSet ((List.range n).map stepsAndTicks) polling) ∧ stepsAndTicks 0 = .step 0 ∧
    polling.status = .running ∧ polling.fetchWord = some (encode (.ldVxDt 1)) := by
  refine ⟨fun n => ⟨2 * n + 1, by omega, if_neg (by omega)⟩, fun n => ⟨2 * n, 0, by omega, if_pos (by omega)⟩,
    fun n => polling_polls.delayNotSet fun op ho => ?_, rfl, rfl, by decide⟩
  obtain ⟨k, -, rfl⟩ := List.mem_map.1 ho
  unfold stepsAndTicks
  split
  · exact .inr ⟨_, rfl⟩
  · exact .inl rfl

/-- Key 7 pressed, the core re-entered, key 7 released, again and again. -/
def pressStepRelease (n : Nat) : HostOp :=
  if n % 3 = 0 then .key 7 true else if n % 3 = 1 then .step 0 else .key 7 false

/-- KeyWaitTakesTheLeastKey, the wait: its schedule, at the last address of a fetch; a LOAD below it and one over it. -/
theorem witness_key_events : (∀ n, (pressStepRelease n).spares (at' 0xFFE 0xF00A base).pc.toNat = true) ∧
    StepsKeepComing pressStepRelease ∧ KeyEventsArrive pressStepRelease ∧ (at' 0xFFE 0xF00A base).status = .running ∧
    (at' 0xFFE 0xF00A base).fetchWord = some (encode (.ldVxK 0)) ∧ (HostOp.load [0, 0]).spares 0x202 = true ∧
    (HostOp.load [0, 0]).spares 0x201 = false := by
  refine ⟨fun n => ?_, fun n => ⟨3 * n + 1, 0, by omega, ?_⟩, fun n => ⟨3 * n, 7, by omega, by decide, if_pos (by omega),
    fun j hj hr => ⟨3 * n + 1, 0, by omega, ?_, ?_⟩⟩, rfl, by decide, by decide, by decide⟩
  · unfold pressStepRelease
    split
    · rfl
    · split <;> rfl
  · rw [pressStepRelease, if_neg (by omega), if_pos (by omega)]
  · unfold pressStepRelease at hr
    split at hr
    · cases hr
    · split at hr
      · cases hr
      · omega
  · rw [pressStepRelease, if_neg (by omega), if_pos (by omega)]

/-- EveryOperationAnswersAState: the last index and the first outside the contract. -/
theorem witness_contract : (HostOp.key 15 true).inContract = true ∧ (HostOp.key 16 true).inContract = false := by decide

/-- DeadStackEntriesAreUnobservable: two different states that agree on the one live entry. -/
theorem witness_agree_live :
    ({ base with sp := 1 } : State).AgreeLive { base with sp := 1, stack := base.stack.set 1 0x0ABC } ∧
    ({ base with sp := 1, stack := base.stack.set 1 0x0ABC } : State).stack[1] ≠ base.stack[1] ∧
    ∃ t, step { base with sp := 1 } = .next t :=
  ⟨⟨by decide, rfl⟩, by decide, _, rfl⟩

end Sys2Proof.Tests
end

section
/-! SUPPORT. The operand fields of a word as numbers (spec/30_encoding.md R47), and the family's obligation. -/

namespace Sys2Proof

variable (op : Word)

/-- A slice of a word is its bits as a number: what lies below is divided away, what lies above is dropped. -/
theorem toNat_slice (lo len : Nat) : (op.extractLsb' lo len).toNat = op.toNat / 2 ^ lo % 2 ^ len := by
  rw [BitVec.extractLsb'_toNat, Nat.shiftRight_eq_div_pow]

/-- A slice from bit 0 is the word modulo its length. -/
theorem toNat_lowSlice (len : Nat) : (op.extractLsb' 0 len).toNat = op.toNat % 2 ^ len := by
  rw [toNat_slice, Nat.pow_zero, Nat.div_one]

theorem fieldX_val : (fieldX op).val = op.toNat / 256 % 16 := toNat_slice op 8 4
theorem fieldY_val : (fieldY op).val = op.toNat / 16 % 16 := toNat_slice op 4 4
theorem fieldN_val : (fieldN op).val = op.toNat % 16 := toNat_lowSlice op 4
theorem fieldNN_toNat : (fieldNN op).toNat = op.toNat % 256 := toNat_lowSlice op 8
theorem fieldNNN_toNat : (fieldNNN op).toNat = op.toNat % 4096 := toNat_lowSlice op 12

/-- An address operand keeps its value in 16 bits: zero-extended, never sign-extended. -/
theorem zextAddr_toNat (nnn : Addr12) : (Machine.zextAddr nnn).toNat = nnn.toNat :=
  BitVec.toNat_setWidth_of_le (by decide)

/-- Settles O6: each field is its slice of the word, and NNN keeps its value when it is widened. -/
theorem operandsAreZeroExtendedFields : Obligations.OperandsAreZeroExtendedFields := fun op =>
  ⟨fieldX_val op, fieldY_val op, fieldN_val op, fieldNN_toNat op, fieldNNN_toNat op,
    (zextAddr_toNat _).trans (fieldNNN_toNat op), (fieldX op).isLt, (fieldY op).isLt⟩

end Sys2Proof
end

section
/-! SUPPORT. The jump targets and the skips as numbers and frames (spec/41_flow.md sections 1 and 3), and the family's
obligations. -/

namespace Sys2Proof.Machine

theorem zextReg_toNat (b : Byte) : (zextReg b).toNat = b.toNat :=
  BitVec.toNat_setWidth_of_le (by decide)

/-- The offset of a byte and an address is below 65536, so the 16-bit sum never wraps (R74). -/
theorem zextReg_add_zextAddr_toNat (b : Byte) (nnn : Addr12) :
    (zextReg b + zextAddr nnn).toNat = b.toNat + nnn.toNat := by
  have hb := b.isLt
  have hn := nnn.isLt
  rw [BitVec.toNat_add, zextReg_toNat, zextAddr_toNat, Nat.mod_eq_of_lt (by omega)]

theorem skipIf_pc_taken (s : State) {c : Bool} (h : c = true) : (s.skipIf c).pc = s.pc + 2 := by
  rw [skipIf_pc, if_pos h]

theorem skipIf_pc_not_taken (s : State) {c : Bool} (h : c = false) : (s.skipIf c).pc = s.pc := by
  rw [skipIf_pc, h, if_neg Bool.false_ne_true]

/-- Settles O26: the target is the operand, whose value widening keeps. -/
theorem jumpSetsPc : Obligations.JumpSetsPc := fun s nnn =>
  ⟨s.jump (zextAddr nnn), rfl, zextAddr_toNat nnn, same_jump s _⟩

/-- Settles O27: the 16-bit sum does not wrap, and its operands bound it by 0xFF + 0xFFF. -/
theorem jumpWithOffsetAddsV0 : Obligations.JumpWithOffsetAddsV0 := fun s nnn => by
  have hsum := zextReg_add_zextAddr_toNat (s.reg 0) nnn
  have hbound : (zextReg (s.reg 0) + zextAddr nnn).toNat ≤ 0x10FE := by
    have hv := (s.reg 0).isLt
    have hn := nnn.isLt
    omega
  exact ⟨s.jump (zextReg (s.reg 0) + zextAddr nnn), rfl, hsum, hbound, same_jump s _⟩

/-- Settles O31: the conditions of the two skips are the equality of VX and the immediate, and its negation. -/
theorem skipsOnImmediate : Obligations.SkipsOnImmediate := fun s x nn =>
  ⟨⟨s.skipIf (s.reg x == nn), rfl, fun h => skipIf_pc_taken s (beq_iff_eq.2 h),
      fun h => skipIf_pc_not_taken s (beq_eq_false_iff_ne.2 h), same_skipIf s _⟩,
    ⟨s.skipIf (s.reg x != nn), rfl, fun h => skipIf_pc_taken s (bne_iff_ne.2 h),
      fun h => skipIf_pc_not_taken s (bne_eq_false_iff_eq.2 h), same_skipIf s _⟩⟩

end Sys2Proof.Machine
end

section
/-! SUPPORT. The 8-bit sum as a number (spec/42_alu.md R80), and the obligations of section 2 and of 8XY0. -/

namespace Sys2Proof.Machine

/-- The ALU's addition is the sum of the operands as numbers, modulo 256 (R80). -/
theorem byte_add_eq_ofNat_mod (a b : Byte) : a + b = BitVec.ofNat 8 ((a.toNat + b.toNat) % 256) := by
  refine BitVec.eq_of_toNat_eq ?_
  rw [BitVec.toNat_add, BitVec.toNat_ofNat, Nat.mod_mod]

/-- Settles O17: both instructions are one register write, whose frame is `onlyReg_setReg`. -/
theorem setAndCopyWriteOneRegister : Obligations.SetAndCopyWriteOneRegister := fun s x y nn =>
  ⟨⟨s.setReg x nn, rfl, onlyReg_setReg s x nn⟩, ⟨s.setReg x (s.reg y), rfl, onlyReg_setReg s x (s.reg y)⟩⟩

/-- Settles O18: the one register write is of the 8-bit sum, which is the sum modulo 256. -/
theorem addImmediateWritesNoFlag : Obligations.AddImmediateWritesNoFlag := fun s x nn => by
  rw [← byte_add_eq_ofNat_mod]
  exact ⟨s.setReg x (s.reg x + nn), rfl, onlyReg_setReg s x (s.reg x + nn)⟩

end Sys2Proof.Machine
end

section
/-! SUPPORT. The frame of an index write and the bound of an address operand (spec/43_index_memory.md section 2), and the
family's obligation. -/

namespace Sys2Proof.Machine

/-- Every effect on I, `{ s with idx := w }`, leaves each other part as it was. -/
theorem same_setIndex (s : State) (w : Word) : SameExcept [.index] s { s with idx := w } := fun p hp => by
  cases p with
  | index => exact absurd (List.mem_singleton_self _) hp
  | _ => simp [Part.same, State.readByte, State.reg]

/-- A widened address operand has 12 bits (R47). -/
theorem zextAddr_toNat_le (nnn : Addr12) : (zextAddr nnn).toNat ≤ 4095 := by
  rw [zextAddr_toNat]
  exact Nat.le_of_lt_succ nnn.isLt

/-- Settles O34: I receives the widened operand, which keeps its value, and the frame is `same_setIndex`. -/
theorem setIndexLoadsNnn : Obligations.SetIndexLoadsNnn := fun s nnn =>
  ⟨{ s with idx := zextAddr nnn }, rfl, zextAddr_toNat nnn, zextAddr_toNat_le nnn, same_setIndex s _⟩

end Sys2Proof.Machine
end

section
/-! SUPPORT. The frame of a screen write, what leaves the framebuffer as it was (spec/44_display.md R106), and the family's
obligations. -/

namespace Sys2Proof.Machine

variable {s t : State}

/-- Replacing the framebuffer leaves each other part as it was. -/
theorem same_setScreen (s : State) (fb : Screen) : SameExcept [.screen] s { s with fb := fb } := fun p hp => by
  cases p with
  | screen => exact absurd (List.mem_singleton_self _) hp
  | _ => simp [Part.same, State.readByte, State.reg]

/-- A frame that does not list the screen leaves the framebuffer itself as it was. -/
theorem SameExcept.fb_eq {changed : List Part} (h : SameExcept changed s t) (hs : .screen ∉ changed) : t.fb = s.fb :=
  Screen.ext_cell (h .screen hs)

/-- Every effect but those of 00E0 and DXYN leaves the framebuffer. -/
theorem Effect.keeps_fb_or_draws {i : Instr} (h : Effect s t i) :
    t.fb = s.fb ∨ i = .cls ∨ ∃ x y n, i = .drw x y n := by
  cases i with
  | cls => exact .inr (.inl rfl)
  | drw x y n => exact .inr (.inr ⟨x, y, n, rfl⟩)
  | jp | jpV0 | rnd | ldDtVx | ldStVx =>
    cases h
    exact .inl rfl
  | seImm | sneImm | seReg | sneReg =>
    obtain ⟨c, rfl⟩ := h
    exact .inl (skipIf_fb s c)
  | skp | sknp =>
    obtain ⟨-, c, rfl⟩ := h
    exact .inl (skipIf_fb s c)
  | ldVxK =>
    obtain rfl | ⟨b, rfl⟩ := h
    · exact .inl (rewind_fb s)
    · exact .inl (setReg_fb s _ b)
  | _ =>
    obtain ⟨_, rfl⟩ := h
    exact .inl rfl

/-- A fault keeps the framebuffer, so the instructions that can change it are those whose effect does. -/
theorem exec_keeps_fb_or_draws {i : Instr} (h : exec i s = .next t) :
    t.fb = s.fb ∨ i = .cls ∨ ∃ x y n, i = .drw x y n := by
  obtain ⟨c, n, -, rfl⟩ | he := exec_cases h
  · exact .inl (raiseAt_fb s s.pc0 c n)
  · exact he.keeps_fb_or_draws

/-- A step that changes the framebuffer executed one of the two display instructions. -/
theorem step_draws_of_fb_ne (h : step s = .next t) (hne : t.fb ≠ s.fb) :
    ∃ i, decode (wordOfBytes (s.readByte s.pc.toNat) (s.readByte (s.pc.toNat + 1))) = .ok i ∧
      (i = .cls ∨ ∃ x y n, i = .drw x y n) := by
  obtain ⟨-, rfl⟩ | ⟨-, -, rfl⟩ | ⟨-, -, ⟨i, hd, he⟩ | ⟨_, -, rfl⟩⟩ := step_cases h
  · exact absurd rfl hne
  · exact absurd (raiseAt_fb s s.pc .fetchOob _) hne
  · exact ⟨i, hd, (exec_keeps_fb_or_draws he).resolve_left hne⟩
  · exact absurd (advance_fb s) hne

/-- RESET and STEP are the only operations that cannot fall between two STEPs. -/
theorem betweenSteps_of_ne {op : HostOp} (hr : op ≠ .reset) (hs : ∀ b, op ≠ .step b) : betweenSteps op = true := by
  cases op with
  | reset => exact absurd rfl hr
  | step b => exact absurd rfl (hs b)
  | load | tick | key | readFb => rfl

/-- An operation between two STEPs keeps the framebuffer: the screen is not in its frame. -/
theorem perform_between_fb {op : HostOp} {r : OpResult} (h : betweenSteps op = true)
    (hp : perform op s = .next (r, t)) : t.fb = s.fb := by
  obtain ⟨r', t', hp', hsame, -⟩ := perform_between (s := s) h
  cases hp.symm.trans hp'
  exact hsame.fb_eq (by decide)

/-- Settles O41: the new framebuffer is the blank one, and the frame is `same_setScreen`. -/
theorem clearTurnsEveryCellOff : Obligations.ClearTurnsEveryCellOff := fun s =>
  ⟨{ s with fb := Screen.blank }, rfl, Screen.cell_blank, same_setScreen s _⟩

/-- Settles O44: by the case analysis of a step, and by the frame of the operations between two STEPs. -/
theorem onlyClearDrawAndResetChangeTheScreen : Obligations.OnlyClearDrawAndResetChangeTheScreen :=
  ⟨fun _ _ h hne => step_draws_of_fb_ne h hne,
    fun _ _ _ _ hr hs hp => perform_between_fb (betweenSteps_of_ne hr hs) hp, fun _ => rfl⟩

end Sys2Proof.Machine
end

section
/-! SUPPORT. The frames of the writes to the two timers (spec/45_keypad_timers.md section 3), and the family's obligation. -/

namespace Sys2Proof.Machine

/-- A write to the delay timer leaves each other part as it was. -/
theorem same_setDelay (s : State) (b : Byte) : SameExcept [.delay] s { s with dt := b } := fun p hp => by
  cases p with
  | delay => exact absurd (List.mem_singleton_self _) hp
  | _ => simp [Part.same, State.readByte, State.reg]

/-- A write to the sound timer leaves each other part as it was. -/
theorem same_setSound (s : State) (b : Byte) : SameExcept [.sound] s { s with st := b } := fun p hp => by
  cases p with
  | sound => exact absurd (List.mem_singleton_self _) hp
  | _ => simp [Part.same, State.readByte, State.reg]

/-- Settles O47: FX07 is one register write, FX15 and FX18 are one timer write each, with their frames. -/
theorem timerCopies : Obligations.TimerCopies := fun s x =>
  ⟨⟨s.setReg x s.dt, rfl, onlyReg_setReg s x s.dt⟩,
    ⟨{ s with dt := s.reg x }, rfl, rfl, same_setDelay s (s.reg x)⟩,
    ⟨{ s with st := s.reg x }, rfl, rfl, same_setSound s (s.reg x)⟩⟩

end Sys2Proof.Machine
end

section
/-! SUPPORT. The frame of TICK and the order of the cells that READ_FB answers (spec/60_exceptions.md R137, R143), and the
family's obligations. -/

namespace Sys2Proof.Machine

/-- TICK leaves each part but the two timers as it was. -/
theorem same_opTick (s : State) : SameExcept [.delay, .sound] s s.opTick := fun p hp => by
  cases p with
  | delay | sound => exact absurd (by decide) hp
  | _ => simp [Part.same, State.readByte, State.reg]

/-- The cells are the rows of the framebuffer joined in order. -/
theorem cells_eq_flatten (s : State) : s.cells = s.fb.flatten.toList := by
  have hrows : s.fb.flatten.toList = (s.fb.toList.map Vector.toList).flatten := by
    rw [Vector.flatten, Vector.toList, Array.toList_flatten, Array.toList_map, List.map_map]
    rfl
  rw [State.cells, List.flatMap_def, hrows]

/-- 32 rows of 64 cells. -/
theorem length_cells (s : State) : s.cells.length = 2048 := by
  rw [cells_eq_flatten, Vector.length_toList]

/-- Every index of the cells, its row by division and its column by remainder. -/
theorem getElem?_cells (s : State) {i : Nat} (h : i < 2048) : s.cells[i]? = some (s.fb.cell (i / 64) (i % 64)) := by
  have hrow : i / 64 < 32 := by omega
  have hcol : i % 64 < 64 := by omega
  rw [cells_eq_flatten, Vector.getElem?_toList, Vector.getElem?_flatten, dif_pos h]
  simp only [Screen.cell, Nat.mod_eq_of_lt hrow, Nat.mod_eq_of_lt hcol]

/-- Settles O48: each timer goes down by `tickDown`, and the frame is `same_opTick`. -/
theorem tickCountsDownToZero : Obligations.TickCountsDownToZero := fun s =>
  ⟨s.opTick, rfl, toNat_tickDown s.dt, toNat_tickDown s.st, same_opTick s⟩

/-- Settles O51: index `64 * y + x` has row `y` and column `x`, since a column is below 64. -/
theorem readFbIsRowMajor : Obligations.ReadFbIsRowMajor := fun s => by
  refine ⟨s.cells, rfl, length_cells s, fun y x hy hx => ?_⟩
  have hrow : (64 * y + x) / 64 = y := by omega
  have hcol : (64 * y + x) % 64 = x := by omega
  rw [getElem?_cells s (by omega), hrow, hcol]

end Sys2Proof.Machine
end

section
/-! SUPPORT. The nibbles of a word (spec/30_encoding.md R46), a word rebuilt from its fields, and the obligations on the
decoder and the encoder. -/

namespace Sys2Proof

/-! ### The nibbles and fields of an encoded word -/

section
variable (op : BitVec 4) (x y n : Fin 16) (nn : Byte) (nnn : Addr12)

theorem n1_wordFA : n1 (wordFA op nnn) = op.toNat := congrArg BitVec.toNat (slice_n1_FA op nnn)
theorem n1_wordFXK : n1 (wordFXK op x nn) = op.toNat := congrArg BitVec.toNat (slice_n1_FXK op x nn)
theorem n3_wordFXK : n3 (wordFXK op x nn) = (nn.extractLsb' 4 4).toNat := congrArg BitVec.toNat (slice_n3_FXK op x nn)
theorem n4_wordFXK : n4 (wordFXK op x nn) = (nn.extractLsb' 0 4).toNat := congrArg BitVec.toNat (slice_n4_FXK op x nn)
theorem n1_wordFXYN : n1 (wordFXYN op x y n) = op.toNat := congrArg BitVec.toNat (slice_n1_FXYN op x y n)
theorem n4_wordFXYN : n4 (wordFXYN op x y n) = n.val := congrArg BitVec.toNat (slice_N_FXYN op x y n)

theorem fieldNNN_wordFA : fieldNNN (wordFA op nnn) = nnn := slice_NNN_FA op nnn
theorem fieldX_wordFXK : fieldX (wordFXK op x nn) = x := congrArg BitVec.toFin (slice_X_FXK op x nn)
theorem fieldNN_wordFXK : fieldNN (wordFXK op x nn) = nn := slice_NN_FXK op x nn
theorem fieldX_wordFXYN : fieldX (wordFXYN op x y n) = x := congrArg BitVec.toFin (slice_X_FXYN op x y n)
theorem fieldY_wordFXYN : fieldY (wordFXYN op x y n) = y := congrArg BitVec.toFin (slice_Y_FXYN op x y n)
theorem fieldN_wordFXYN : fieldN (wordFXYN op x y n) = n := congrArg BitVec.toFin (slice_N_FXYN op x y n)

end

/-- The decoder reads back what the encoder wrote: the row is found by its fixed nibbles, each operand by its field. -/
theorem decode_encode (i : Instr) : decode (encode i) = .ok i := by
  cases i with
  | cls | ret => rfl
  | jp | call | ldI | jpV0 => simp [decode, encode, n1_wordFA, fieldNNN_wordFA]
  | seImm | sneImm | ldImm | addImm | rnd => simp [decode, encode, n1_wordFXK, fieldX_wordFXK, fieldNN_wordFXK]
  | seReg | ldReg | orReg | andReg | xorReg | addReg | sub | shr | subn | shl | sneReg =>
    simp [decode, encode, n1_wordFXYN, n4_wordFXYN, fieldX_wordFXYN, fieldY_wordFXYN]
  | drw => simp [decode, encode, n1_wordFXYN, fieldX_wordFXYN, fieldY_wordFXYN, fieldN_wordFXYN]
  | skp | sknp | ldVxDt | ldVxK | ldDtVx | ldStVx | addI | ldF | ldB | stRegs | ldRegs =>
    simp [decode, encode, n1_wordFXK, n3_wordFXK, n4_wordFXK, fieldX_wordFXK]

/-- On bytes: the two bytes of the encoded word make the word again, and what follows them is the rest. -/
theorem decodeBytes_encodeBytes_append (i : Instr) (rest : List Byte) :
    decodeBytes (encodeBytes i ++ rest) = .ok (i, rest) := by
  have hbytes : encodeBytes i ++ rest = (encode i).extractLsb' 8 8 :: (encode i).extractLsb' 0 8 :: rest := rfl
  rw [hbytes, decodeBytes, wordOfBytes_split, decode_encode]

/-- Settles O1: on words `decode_encode`, on bytes `decodeBytes_encodeBytes_append`. -/
theorem decodeOfEncodeIsTheInstruction : Obligations.DecodeOfEncodeIsTheInstruction := fun i =>
  ⟨decode_encode i, decodeBytes_encodeBytes_append i⟩

/-! ### A word rebuilt from its nibbles and fields -/

theorem n1_eq (op : Word) : n1 op = op.toNat / 4096 % 16 := toNat_slice op 12 4
theorem n2_eq (op : Word) : n2 op = op.toNat / 256 % 16 := toNat_slice op 8 4
theorem n3_eq (op : Word) : n3 op = op.toNat / 16 % 16 := toNat_slice op 4 4
theorem n4_eq (op : Word) : n4 op = op.toNat % 16 := toNat_lowSlice op 4

theorem toNat_append_eq_add {v w : Nat} (a : BitVec v) (b : BitVec w) : (a ++ b).toNat = a.toNat * 2 ^ w + b.toNat := by
  rw [BitVec.toNat_append, ← Nat.shiftLeft_add_eq_or_of_lt b.isLt, Nat.shiftLeft_eq]

theorem toNat_wordFA (k : BitVec 4) (nnn : Addr12) : (wordFA k nnn).toNat = k.toNat * 4096 + nnn.toNat :=
  toNat_append_eq_add k nnn

theorem toNat_wordFXK (k : BitVec 4) (x : RegIdx) (nn : Byte) :
    (wordFXK k x nn).toNat = (k.toNat * 16 + x.val) * 256 + nn.toNat :=
  (toNat_append_eq_add (k ++ (BitVec.ofFin x : BitVec 4)) nn).trans
    (congrArg (· * 256 + nn.toNat) (toNat_append_eq_add k (BitVec.ofFin x : BitVec 4)))

theorem toNat_wordFXYN (k : BitVec 4) (x y n : Fin 16) :
    (wordFXYN k x y n).toNat = ((k.toNat * 16 + x.val) * 16 + y.val) * 16 + n.val :=
  
  (toNat_append_eq_add (k ++ (BitVec.ofFin x : BitVec 4) ++ (BitVec.ofFin y : BitVec 4)) (BitVec.ofFin n : BitVec 4)).trans
    (congrArg (· * 16 + n.val)
      ((toNat_append_eq_add (k ++ (BitVec.ofFin x : BitVec 4)) (BitVec.ofFin y : BitVec 4)).trans
        (congrArg (· * 16 + y.val) (toNat_append_eq_add k (BitVec.ofFin x : BitVec 4)))))

section
variable {op : Word} {k : BitVec 4}

/-- The first nibble and the address field make the word. -/
theorem wordFA_of_n1 (h : n1 op = k.toNat) : wordFA k (fieldNNN op) = op := by
  have := op.isLt
  rw [n1_eq] at h
  exact BitVec.eq_of_toNat_eq (by rw [toNat_wordFA, fieldNNN_toNat]; omega)

/-- The first nibble, the register field and the byte field make the word. -/
theorem wordFXK_of_n1 (h : n1 op = k.toNat) : wordFXK k (fieldX op) (fieldNN op) = op := by
  have := op.isLt
  rw [n1_eq] at h
  exact BitVec.eq_of_toNat_eq (by rw [toNat_wordFXK, fieldX_val, fieldNN_toNat]; omega)

/-- The first nibble and the three nibble fields make the word. -/
theorem wordFXYN_of_n1 (h : n1 op = k.toNat) : wordFXYN k (fieldX op) (fieldY op) (fieldN op) = op := by
  have := op.isLt
  rw [n1_eq] at h
  exact BitVec.eq_of_toNat_eq (by rw [toNat_wordFXYN, fieldX_val, fieldY_val, fieldN_val]; omega)

/-- The same word when its last nibble is fixed. -/
theorem wordFXYN_of_n1_n4 {n : Fin 16} (h1 : n1 op = k.toNat) (h4 : n4 op = n.val) :
    wordFXYN k (fieldX op) (fieldY op) n = op := by
  rw [← show fieldN op = n from Fin.ext h4]
  exact wordFXYN_of_n1 h1

/-- The byte field is its two nibbles. -/
theorem fieldNN_eq_iff {nn : Byte} : fieldNN op = nn ↔ n3 op = nn.toNat / 16 ∧ n4 op = nn.toNat % 16 := by
  have := nn.isLt
  rw [← BitVec.toNat_inj, fieldNN_toNat, n3_eq, n4_eq]
  omega

/-- The same word when its byte field is fixed, nibble by nibble. -/
theorem wordFXK_of_nibbles {nn : Byte} (h1 : n1 op = k.toNat) (h3 : n3 op = nn.toNat / 16) (h4 : n4 op = nn.toNat % 16) :
    wordFXK k (fieldX op) nn = op := by
  rw [← fieldNN_eq_iff.2 ⟨h3, h4⟩]
  exact wordFXK_of_n1 h1

end

/-- Two words with the same four nibbles are the same word. -/
theorem eq_iff_nibbles {op w : Word} : op = w ↔ n1 op = n1 w ∧ n2 op = n2 w ∧ n3 op = n3 w ∧ n4 op = n4 w := by
  have ho := op.isLt
  have hw := w.isLt
  simp only [← BitVec.toNat_inj, n1_eq, n2_eq, n3_eq, n4_eq]
  omega

/-- The encoder writes back what the decoder read: no bit of a word that decodes is dropped. -/
theorem encode_of_decode {op : Word} {i : Instr} (h : decode op = .ok i) : encode i = op := by
  unfold decode at h
  split at h <;> cases h
  case h_1 h1 h2 h3 h4 | h_2 h1 h2 h3 h4 => exact (eq_iff_nibbles.2 ⟨h1, h2, h3, h4⟩).symm
  case h_3 h1 | h_4 h1 | h_20 h1 | h_21 h1 => exact wordFA_of_n1 h1
  case h_5 h1 | h_6 h1 | h_8 h1 | h_9 h1 | h_22 h1 => exact wordFXK_of_n1 h1
  case h_23 h1 => exact wordFXYN_of_n1 h1
  case h_7 h1 h4 | h_10 h1 h4 | h_11 h1 h4 | h_12 h1 h4 | h_13 h1 h4 | h_14 h1 h4 | h_15 h1 h4 | h_16 h1 h4 |
      h_17 h1 h4 | h_18 h1 h4 | h_19 h1 h4 =>
    exact wordFXYN_of_n1_n4 h1 h4
  all_goals exact wordFXK_of_nibbles ‹_› ‹_› ‹_›

/-- Settles O2: `encode_of_decode`. -/
theorem encodeOfDecodeIsTheWord : Obligations.EncodeOfDecodeIsTheWord := fun _ _ => encode_of_decode

/-- Decoding and encoding are each other's inverse. -/
theorem decode_eq_ok_iff {op : Word} {i : Instr} : decode op = .ok i ↔ encode i = op :=
  ⟨encode_of_decode, fun h => h ▸ decode_encode i⟩

/-- A word decodes, or is reported as unrecognized. -/
theorem decode_cases (op : Word) : (∃ i, decode op = .ok i) ∨ decode op = .error (.unrecognized op) := by
  unfold decode
  split
  case h_35 => exact .inr rfl
  all_goals exact .inl ⟨_, rfl⟩

/-! ### Masks and matches -/

/-- Every instruction's word lies in its row (R48): the 34 cases of `Laws.EncodedInRow`, as one. -/
theorem encode_and_rowMask (i : Instr) : encode i &&& i.rowMask = i.rowMatch := by
  cases i with
  | cls | ret => rfl
  | jp | call | ldI | jpV0 => exact (mask_FA _ _).trans rfl
  | seImm | sneImm | ldImm | addImm | rnd => exact (mask_FXK _ _ _).trans rfl
  | seReg | ldReg | orReg | andReg | xorReg | addReg | sub | shr | subn | shl | sneReg => exact (mask_FXY _ _ _ _).trans rfl
  | drw => exact (mask_FXYN _ _ _ _).trans rfl
  | skp | sknp | ldVxDt | ldVxK | ldDtVx | ldStVx | addI | ldF | ldB | stRegs | ldRegs => exact (mask_FX _ _ _).trans rfl

/-- A nibble that the mask keeps is the match's nibble. -/
theorem slice_of_masked {op m w : Word} {lo : Nat} (h : op &&& m = w) (hm : m.extractLsb' lo 4 = BitVec.allOnes 4) :
    op.extractLsb' lo 4 = w.extractLsb' lo 4 := by
  rw [← h, BitVec.extractLsb'_and, hm, BitVec.and_allOnes]

/-- Where the mask `m` of its row keeps a nibble, a word in the row of `i` has the nibble of the word of `i`. -/
theorem slice_of_row {op m : Word} {i : Instr} (h : op &&& i.rowMask = i.rowMatch) {lo : Nat} (hi : i.rowMask = m)
    (hm : m.extractLsb' lo 4 = BitVec.allOnes 4) : op.extractLsb' lo 4 = (encode i).extractLsb' lo 4 := by
  subst hi
  exact (slice_of_masked h hm).trans (slice_of_masked (encode_and_rowMask i) hm).symm

/-- Every mask keeps the first nibble. -/
theorem n1_of_row {op : Word} {i : Instr} (h : op &&& i.rowMask = i.rowMatch) : n1 op = n1 (encode i) := by
  have hm : i.rowMask.extractLsb' 12 4 = BitVec.allOnes 4 := by cases i <;> simp [Instr.rowMask]
  exact congrArg BitVec.toNat (slice_of_row h rfl hm)

/-- A word in the row of `i` decodes to an instruction of that row: the nibbles its mask keeps are those the decoder
matches. -/
theorem decode_of_row {op : Word} {i : Instr} (h : op &&& i.rowMask = i.rowMatch) :
    ∃ j, decode op = .ok j ∧ j.tag = i.tag := by
  have h1 := n1_of_row h
  cases i with
  | cls | ret =>
    obtain rfl := (BitVec.and_allOnes (x := op)).symm.trans h
    exact ⟨_, rfl, rfl⟩
  | jp | call | ldI | jpV0 =>
    rw [encode, n1_wordFA] at h1
    simp [decode, h1, Instr.tag]
  | seImm | sneImm | ldImm | addImm | rnd =>
    rw [encode, n1_wordFXK] at h1
    simp [decode, h1, Instr.tag]
  | seReg | ldReg | orReg | andReg | xorReg | addReg | sub | shr | subn | shl | sneReg =>
    have h4 : n4 op = n4 _ := congrArg BitVec.toNat (slice_of_row h (m := 0xF00F) rfl (by decide))
    rw [encode, n1_wordFXYN] at h1
    rw [encode, n4_wordFXYN] at h4
    simp [decode, h1, h4, Instr.tag]
  | drw =>
    rw [encode, n1_wordFXYN] at h1
    simp [decode, h1, Instr.tag]
  | skp | sknp | ldVxDt | ldVxK | ldDtVx | ldStVx | addI | ldF | ldB | stRegs | ldRegs =>
    have h3 : n3 op = n3 _ := congrArg BitVec.toNat (slice_of_row h (m := 0xF0FF) rfl (by decide))
    have h4 : n4 op = n4 _ := congrArg BitVec.toNat (slice_of_row h (m := 0xF0FF) rfl (by decide))
    rw [encode, n1_wordFXK] at h1
    rw [encode, n3_wordFXK] at h3
    rw [encode, n4_wordFXK] at h4
    simp [decode, h1, h3, h4, Instr.tag]

/-- A word that decodes to `i` lies in the row of `i`. -/
theorem row_of_decode {op : Word} {i : Instr} (h : decode op = .ok i) : op &&& i.rowMask = i.rowMatch :=
  encode_of_decode h ▸ encode_and_rowMask i

/-- A word lies in at most one row: the row it decodes into. -/
theorem tag_eq_of_rows {op : Word} {i j : Instr} (hi : op &&& i.rowMask = i.rowMatch)
    (hj : op &&& j.rowMask = j.rowMatch) : i.tag = j.tag := by
  obtain ⟨i', hdi, hti⟩ := decode_of_row hi
  obtain ⟨j', hdj, htj⟩ := decode_of_row hj
  obtain rfl : i' = j' := Except.ok.inj (hdi.symm.trans hdj)
  exact hti.symm.trans htj

/-- Settles O3: `row_of_decode` one way, `decode_of_row` the other. -/
theorem decodeFollowsMaskAndMatch : Obligations.DecodeFollowsMaskAndMatch :=
  ⟨fun _ _ => row_of_decode, fun _ _ => decode_of_row, fun _ _ _ => tag_eq_of_rows,
    fun op hnone => (decode_cases op).resolve_left fun ⟨i, hi⟩ => hnone i (row_of_decode hi)⟩

/-! ### The unrecognized words (R52) -/

/-- The table of R52: which first nibbles leave a word unrecognized, and what else they ask of it. -/
def IsUnrecognized (op : Word) : Prop :=
  (n1 op = 0 ∧ op ≠ 0x00E0 ∧ op ≠ 0x00EE) ∨ (n1 op = 5 ∧ n4 op ≠ 0) ∨ (n1 op = 9 ∧ n4 op ≠ 0) ∨
  (n1 op = 8 ∧ n4 op ∈ [0x8, 0x9, 0xA, 0xB, 0xC, 0xD, 0xF]) ∨ (n1 op = 0xE ∧ fieldNN op ∉ [0x9E, 0xA1]) ∨
  (n1 op = 0xF ∧ fieldNN op ∉ [0x07, 0x0A, 0x15, 0x18, 0x1E, 0x29, 0x33, 0x55, 0x65])

/-- No instruction's word is in the table. -/
theorem not_isUnrecognized_encode (i : Instr) : ¬IsUnrecognized (encode i) := by
  cases i with
  | cls | ret => simp [IsUnrecognized, encode, n1_eq]
  | jp | call | ldI | jpV0 => simp [IsUnrecognized, encode, n1_wordFA]
  | seImm | sneImm | ldImm | addImm | rnd => simp [IsUnrecognized, encode, n1_wordFXK]
  | seReg | ldReg | orReg | andReg | xorReg | addReg | sub | shr | subn | shl | sneReg | drw =>
    simp [IsUnrecognized, encode, n1_wordFXYN, n4_wordFXYN]
  | skp | sknp | ldVxDt | ldVxK | ldDtVx | ldStVx | addI | ldF | ldB | stRegs | ldRegs =>
    simp [IsUnrecognized, encode, n1_wordFXK, fieldNN_wordFXK]

/-- A word outside the table decodes: by its first nibble, and the fixed nibbles that this one asks for. -/
theorem decodes_of_not_isUnrecognized {op : Word} (h : ¬IsUnrecognized op) : ∃ i, decode op = .ok i := by
  have h1 : n1 op < 16 := by rw [n1_eq]; omega
  have h4 : n4 op < 16 := by rw [n4_eq]; omega
  simp only [IsUnrecognized, List.mem_cons, List.not_mem_nil, fieldNN_eq_iff] at h
  have hnibble : n1 op = 0 ∨ (n1 op = 5 ∨ n1 op = 9) ∨ n1 op = 8 ∨ n1 op = 14 ∨ n1 op = 15 ∨
      (n1 op = 1 ∨ n1 op = 2 ∨ n1 op = 3 ∨ n1 op = 4 ∨ n1 op = 6 ∨ n1 op = 7) ∨
      (n1 op = 10 ∨ n1 op = 11 ∨ n1 op = 12 ∨ n1 op = 13) := by omega
  obtain hn | hn | hn | hn | hn | hn | hn := hnibble
  · obtain rfl | rfl : op = 0x00E0 ∨ op = 0x00EE := by simpa [hn, or_iff_not_imp_left] using h
    · exact ⟨.cls, rfl⟩
    · exact ⟨.ret, rfl⟩
  · have h4 : n4 op = 0 := by
      obtain hn | hn := hn <;> simpa [hn] using h
    obtain hn | hn := hn <;> simp [decode, hn, h4]
  · have h8 : n4 op < 8 ∨ n4 op = 14 := by
      simp [hn] at h
      omega
    obtain hlt | h14 := h8
    · interval_cases hn4 : n4 op <;> simp [decode, hn, hn4]
    · simp [decode, hn, h14]
  · obtain ⟨h3, h4⟩ | ⟨h3, h4⟩ := by simpa [hn, -not_or, -not_and] using h
    all_goals simp [decode, hn, h3, h4]
  · obtain ⟨h3, h4⟩ | ⟨h3, h4⟩ | ⟨h3, h4⟩ | ⟨h3, h4⟩ | ⟨h3, h4⟩ | ⟨h3, h4⟩ | ⟨h3, h4⟩ | ⟨h3, h4⟩ | ⟨h3, h4⟩ := by
      simpa [hn, -not_or, -not_and] using h
    all_goals simp [decode, hn, h3, h4]
  · obtain hn | hn | hn | hn | hn | hn := hn <;> simp [decode, hn]
  · obtain hn | hn | hn | hn := hn <;> simp [decode, hn]

/-- Settles O4: `decodes_of_not_isUnrecognized` one way, `not_isUnrecognized_encode` the other. -/
theorem unrecognizedWordsByFirstNibble : Obligations.UnrecognizedWordsByFirstNibble := fun op => by
  change _ ↔ IsUnrecognized op
  refine ⟨fun h => by_contra fun hno => ?_, fun h => (decode_cases op).resolve_left fun ⟨i, hi⟩ => ?_⟩
  · obtain ⟨i, hi⟩ := decodes_of_not_isUnrecognized hno
    cases h.symm.trans hi
  · exact not_isUnrecognized_encode i (encode_of_decode hi ▸ h)

/-- Settles O5: each word is the encoding of its instruction, and the last one's first nibble asks for a last nibble 0. -/
theorem sampleWordsDecode : Obligations.SampleWordsDecode := ⟨rfl, rfl, rfl, rfl, rfl, rfl, rfl, rfl⟩

end Sys2Proof
end

section
/-! SUPPORT. Frames as relations, the parts that each instruction's effect can change, and the answer of every instruction:
its fault or its effect, never both (spec/10_state.md R28, spec/60_exceptions.md R124, R127). -/

namespace Sys2Proof.Machine

variable {s t u : State} {i : Instr} {c : FaultCause} {n : Info}

/-! ### Frames compose -/

theorem Part.same_refl (s : State) (p : Part) : p.same s s := by
  cases p <;> simp [Part.same]

theorem Part.same_trans {p : Part} (h : p.same s t) (h' : p.same t u) : p.same s u := by
  cases p with
  | regs | memory => exact fun a => (h' a).trans (h a)
  | screen => exact fun y x => (h' y x).trans (h y x)
  | stack | input => exact ⟨h'.1.trans h.1, h'.2.trans h.2⟩
  | fault =>
    obtain ⟨h1, h2, h3, h4⟩ := h
    obtain ⟨h1', h2', h3', h4'⟩ := h'
    exact ⟨h1'.trans h1, h2'.trans h2, h3'.trans h3, h4'.trans h4⟩
  | index | pc | delay | sound | keys | font => exact h'.trans h

theorem SameExcept.refl (changed : List Part) (s : State) : SameExcept changed s s := fun p _ => p.same_refl s

theorem SameExcept.trans {changed : List Part} (h : SameExcept changed s t) (h' : SameExcept changed t u) :
    SameExcept changed s u := fun p hp => Part.same_trans (h p hp) (h' p hp)

theorem SameExcept.mono {changed more : List Part} (h : SameExcept changed s t) (hsub : changed ⊆ more) :
    SameExcept more s t := fun p hp => h p fun hmem => hp (hsub hmem)

/-! ### The frame of every effect -/

/-- The parts of the state that an instruction's effect can change: the columns of R28. -/
def changedParts : Instr → List Part
  | .cls => [.screen]
  | .ret | .call _ => [.pc, .stack]
  | .jp _ | .jpV0 _ | .seImm _ _ | .sneImm _ _ | .seReg _ _ | .sneReg _ _ | .skp _ | .sknp _ => [.pc]
  | .ldImm _ _ | .addImm _ _ | .ldReg _ _ | .orReg _ _ | .andReg _ _ | .xorReg _ _ => [.regs]
  | .addReg _ _ | .sub _ _ | .shr _ _ | .subn _ _ | .shl _ _ | .ldVxDt _ | .ldRegs _ => [.regs]
  | .rnd _ _ => [.regs, .input]
  | .ldI _ | .addI _ | .ldF _ => [.index]
  | .drw _ _ _ => [.regs, .screen]
  | .ldVxK _ => [.regs, .pc]
  | .ldDtVx _ => [.delay]
  | .ldStVx _ => [.sound]
  | .ldB _ | .stRegs _ => [.memory]

theorem same_setReg (s : State) (x : RegIdx) (b : Byte) : SameExcept [.regs] s (s.setReg x b) :=
  (onlyReg_setReg s x b).2.2

theorem same_setWithFlag (s : State) (x : RegIdx) (p : Byte × Bool) : SameExcept [.regs] s (s.setWithFlag x p) :=
  (onlyRegAndFlag_setWithFlag s x p).2.2.2.2

theorem same_renewRnd (s : State) : SameExcept [.input] s s.renewRnd := fun p hp => by
  cases p with
  | input => exact absurd (List.mem_singleton_self _) hp
  | _ => simp [Part.same, State.readByte, State.reg]

theorem same_rewind (s : State) : SameExcept [.pc] s s.rewind := same_jump s _

theorem same_setStack (s : State) (k : Vector Word 16) (p : Fin 17) :
    SameExcept [.stack] s { s with stack := k, sp := p } := fun q hq => by
  cases q with
  | stack => exact absurd (List.mem_singleton_self _) hq
  | _ => simp [Part.same, State.readByte, State.reg]

theorem same_raiseAt (s : State) (w : Word) (c : FaultCause) (n : Info) :
    SameExcept [.pc, .fault] s (s.raiseAt w c n) := fun p hp => by
  cases p with
  | pc | fault => exact absurd (by decide) hp
  | _ => simp [Part.same, State.readByte, State.reg]

/-- An effect leaves every part but its own. -/
theorem Effect.frame (h : Effect s t i) : SameExcept (changedParts i) s t := by
  cases i with
  | cls => exact h ▸ same_setScreen s _
  | ret =>
    obtain ⟨hsp, rfl⟩ := h
    exact ((same_setStack s _ _).mono (by simp [changedParts])).trans ((same_jump _ _).mono (by simp [changedParts]))
  | call nnn =>
    obtain ⟨hsp, rfl⟩ := h
    exact ((same_setStack s _ _).mono (by simp [changedParts])).trans ((same_jump _ _).mono (by simp [changedParts]))
  | jp | jpV0 => exact h ▸ same_jump s _
  | seImm | sneImm | seReg | sneReg =>
    obtain ⟨b, rfl⟩ := h
    exact same_skipIf s b
  | skp | sknp =>
    obtain ⟨-, b, rfl⟩ := h
    exact same_skipIf s b
  | ldImm | addImm | ldReg | orReg | andReg | xorReg | ldVxDt =>
    obtain ⟨b, rfl⟩ := h
    exact same_setReg s _ b
  | addReg | sub | shr | subn | shl =>
    obtain ⟨p, rfl⟩ := h
    exact same_setWithFlag s _ p
  | rnd =>
    rw [show t = _ from h]
    exact ((same_setReg s _ _).mono (by simp [changedParts])).trans ((same_renewRnd _).mono (by simp [changedParts]))
  | ldI | addI | ldF =>
    obtain ⟨w, rfl⟩ := h
    exact same_setIndex s w
  | drw =>
    obtain ⟨-, rfl⟩ := h
    exact same_drawSprite s _ _ _
  | ldVxK =>
    obtain rfl | ⟨b, rfl⟩ := h
    · exact (same_rewind s).mono (by simp [changedParts])
    · exact (same_setReg s _ b).mono (by simp [changedParts])
  | ldDtVx => exact h ▸ same_setDelay s _
  | ldStVx => exact h ▸ same_setSound s _
  | ldB | stRegs =>
    obtain ⟨-, rfl⟩ := h
    exact same_writeBytes s _ _
  | ldRegs =>
    obtain ⟨-, rfl⟩ := h
    exact same_setRegs s _

/-- A part that an effect changed is one of its own. -/
theorem Effect.mem_changedParts (h : Effect s t i) {p : Part} (hp : ¬p.same s t) : p ∈ changedParts i :=
  by_contra fun hmem => hp (h.frame p hmem)

/-- No effect touches STATUS or the fault record (R127). -/
theorem Effect.same_fault (h : Effect s t i) : Part.fault.same s t :=
  h.frame .fault (by cases i <;> simp [changedParts])

theorem Effect.status_eq (h : Effect s t i) : t.status = s.status := h.same_fault.1

/-! ### Every instruction answers, its fault or its effect -/

theorem commit_next (s : State) (c : FaultCause) (n : Info) (r : Option State) : ∃ t, s.commit c n r = .next t := by
  cases r <;> exact ⟨_, rfl⟩

/-- Every instruction answers a state. -/
theorem exec_next (i : Instr) (s : State) : ∃ t, exec i s = .next t := by
  cases i with
  | call | ret | drw | ldRegs | ldB | stRegs | skp | sknp => exact commit_next s _ _ _
  | ldVxK x =>
    cases hk : s.firstKey with
    | none => exact ⟨s.rewind, by simp only [exec, execLdVxK, hk]⟩
    | some k => exact ⟨s.setReg x (BitVec.ofNat 8 k.val), by simp only [exec, execLdVxK, hk]⟩
  | _ => exact ⟨_, rfl⟩

/-- The condition of a fault excludes the effect. -/
theorem CanFault.not_effect (h : CanFault s i c n) : ¬Effect s t i := by
  cases h with
  | call nnn hsp =>
    rintro ⟨hlt, -⟩
    rw [hsp] at hlt
    exact absurd hlt (by decide)
  | ret hsp =>
    rintro ⟨hlt, -⟩
    rw [hsp] at hlt
    exact absurd hlt (by decide)
  | drw x y k hr | ldRegs x hr | ldB x hr | stRegs x hr =>
    rintro ⟨hok, -⟩
    exact Bool.false_ne_true (hr.symm.trans hok)
  | skp x hk | sknp x hk =>
    rintro ⟨hlt, -⟩
    omega

/-- An instruction has at most one fault. -/
theorem CanFault.unique {c' : FaultCause} {n' : Info} (h : CanFault s i c n) (h' : CanFault s i c' n') :
    c' = c ∧ n' = n := by
  cases h <;> cases h' <;> exact ⟨rfl, rfl⟩

/-- An instruction whose fault condition holds takes the fault. -/
theorem exec_of_canFault (h : CanFault s i c n) : exec i s = .next (s.raiseAt s.pc0 c n) := by
  obtain ⟨t, ht⟩ := exec_next i s
  obtain ⟨c', n', h', rfl⟩ | he := exec_cases ht
  · obtain ⟨rfl, rfl⟩ := h.unique h'
    exact ht
  · exact absurd he h.not_effect

theorem takesFault_raiseAt (s : State) (c : FaultCause) (n : Info) : TakesFault c n.toNat s (s.raiseAt s.pc0 c n) :=
  ⟨rfl, rfl⟩

/-- The same, in the terms of Safety.lean. -/
theorem takesFault_of_canFault (h : CanFault s i c n) : ∃ t, exec i s = .next t ∧ TakesFault c n.toNat s t :=
  ⟨_, exec_of_canFault h, takesFault_raiseAt s c n⟩

theorem fetchWord_eq_some (hp : s.pc.toNat ≤ 4094) :
    s.fetchWord = some (wordOfBytes (s.readByte s.pc.toNat) (s.readByte (s.pc.toNat + 1))) :=
  if_neg (Nat.not_lt.2 hp)

theorem fetchWord_eq_none (hp : 4094 < s.pc.toNat) : s.fetchWord = none := if_pos hp

/-- Every step answers a state. -/
theorem step_next (s : State) : ∃ t, step s = .next t := by
  cases hs : s.status with
  | faulted => exact ⟨_, step_of_faulted hs⟩
  | running =>
    obtain ⟨-, hf⟩ | ⟨-, hf⟩ := fetchWord_cases s
    · obtain ⟨i, hd⟩ | hd := decode_cases (wordOfBytes (s.readByte s.pc.toNat) (s.readByte (s.pc.toNat + 1)))
      · rw [step_of_instr hs hf hd]
        exact exec_next i s.advance
      · exact ⟨_, step_of_unrecognized hs hf hd⟩
    · exact ⟨_, step_of_fetchFault hs hf⟩

/-! ### The operations between two STEPs -/

theorem perform_key {k : Nat} (hk : k < 16) (pressed : Bool) :
    perform (.key k pressed) s = .next (.ok, s.opKey ⟨k, hk⟩ pressed) := by
  rw [perform, dif_pos hk]

theorem perform_key_refused {k : Nat} (hk : ¬k < 16) (pressed : Bool) :
    perform (.key k pressed) s = .next (.error .keyIndexInvalid, s) := by
  rw [perform, dif_neg hk]

theorem perform_load {image : List Byte} (h : imageFits image = true) :
    perform (.load image) s = .next (.ok, s.opLoad image) := by
  rw [perform, if_pos h]

theorem perform_load_refused {image : List Byte} (h : imageFits image = false) :
    perform (.load image) s = .next (.error .loadTooLarge, s) := by
  rw [perform, if_neg (ne_true_of_eq_false h)]

/-- What an operation between two STEPs can leave: the same state, or a TICK's, a LOAD's, a KEY's. -/
theorem perform_between_cases {op : HostOp} {r : OpResult} (hb : betweenSteps op = true)
    (hp : perform op s = .next (r, t)) :
    t = s ∨ t = s.opTick ∨ (∃ image, op = .load image ∧ imageFits image = true ∧ t = s.opLoad image) ∨
      ∃ (k : Fin 16) (pressed : Bool), op = .key k.val pressed ∧ t = s.opKey k pressed := by
  cases op with
  | reset | step => cases hb
  | tick =>
    cases hp
    exact .inr (.inl rfl)
  | readFb =>
    cases hp
    exact .inl rfl
  | load image =>
    cases hi : imageFits image
    · cases hp.symm.trans (perform_load_refused hi)
      exact .inl rfl
    · cases hp.symm.trans (perform_load hi)
      exact .inr (.inr (.inl ⟨image, rfl, hi, rfl⟩))
  | key k pressed =>
    by_cases hk : k < 16
    · cases hp.symm.trans (perform_key hk pressed)
      exact .inr (.inr (.inr ⟨⟨k, hk⟩, pressed, rfl, rfl⟩))
    · cases hp.symm.trans (perform_key_refused hk pressed)
      exact .inl rfl

end Sys2Proof.Machine
end

section
/-! SUPPORT. The invariant of the machine through a step and through every operation of the host (spec/10_state.md sections
2 and 4, spec/60_exceptions.md section 2), and the obligations on it. -/

namespace Sys2Proof.Machine

variable {s t : State} {i : Instr} {c : FaultCause} {n : Info}

/-! ### What an effect leaves in memory, PC and the stack -/

/-- A range leaves memory exactly when it is not empty and its last byte lies past 4095 (R39). -/
theorem rangeOk_eq_false_iff (s : State) (k : Nat) :
    s.rangeOk k = false ↔ 0 < k ∧ 4095 < s.idx.toNat + (k - 1) := by
  cases k with
  | zero => simp
  | succ k => simp [rangeOk_succ]

/-- An effect leaves the memory list, or is a checked store. -/
theorem Effect.keeps_mem_or_stores (h : Effect s t i) :
    (t.mem = s.mem ∧ t.font = s.font) ∨ ∃ bs, s.storeBytes bs = some t := by
  cases i with
  | ldB x =>
    obtain ⟨hr, rfl⟩ := h
    exact .inr ⟨bcdDigits (s.reg x), by simp [State.storeBytes, State.ea, hr]⟩
  | stRegs x =>
    obtain ⟨hr, rfl⟩ := h
    exact .inr ⟨s.regsUpTo x, by simp [State.storeBytes, State.ea, hr]⟩
  | cls | jp | jpV0 | rnd | ldDtVx | ldStVx =>
    cases h
    exact .inl ⟨rfl, rfl⟩
  | seImm | sneImm | seReg | sneReg =>
    obtain ⟨b, rfl⟩ := h
    exact .inl ⟨skipIf_mem s b, skipIf_font s b⟩
  | skp | sknp =>
    obtain ⟨-, b, rfl⟩ := h
    exact .inl ⟨skipIf_mem s b, skipIf_font s b⟩
  | ldVxK =>
    obtain rfl | ⟨b, rfl⟩ := h <;> exact .inl ⟨rfl, rfl⟩
  | _ =>
    obtain ⟨_, rfl⟩ := h
    exact .inl ⟨rfl, rfl⟩

theorem Effect.mem_wf (h : Effect s t i) (hm : Memory.wf s.font s.mem) : Memory.wf t.font t.mem := by
  obtain ⟨hmem, hfont⟩ | ⟨bs, hbs⟩ := h.keeps_mem_or_stores
  · rw [hmem, hfont]
    exact hm
  · exact storeBytes_mem_wf hm hbs

/-- Where an effect can leave PC: in place, a skip on, a rewind back, at a jump target, at a stack entry. -/
theorem Effect.pc_cases (h : Effect s t i) :
    t.pc = s.pc ∨ t.pc = s.pc + 2 ∨ t.pc = s.pc0 ∨ (∃ nnn, t.pc = zextAddr nnn) ∨
      (∃ b nnn, t.pc = zextReg b + zextAddr nnn) ∨ ∃ k : Fin 16, t.pc = s.stack[k.val] := by
  have hskip : ∀ b, (s.skipIf b).pc = s.pc ∨ (s.skipIf b).pc = s.pc + 2 := fun b => by
    cases b
    · exact .inl rfl
    · exact .inr rfl
  cases i with
  | ret =>
    obtain ⟨hsp, rfl⟩ := h
    exact .inr (.inr (.inr (.inr (.inr ⟨⟨s.sp.val - 1, by omega⟩, rfl⟩))))
  | call nnn =>
    obtain ⟨hsp, rfl⟩ := h
    exact .inr (.inr (.inr (.inl ⟨nnn, rfl⟩)))
  | jp nnn =>
    cases h
    exact .inr (.inr (.inr (.inl ⟨nnn, rfl⟩)))
  | jpV0 nnn =>
    cases h
    exact .inr (.inr (.inr (.inr (.inl ⟨s.reg 0, nnn, rfl⟩))))
  | seImm | sneImm | seReg | sneReg =>
    obtain ⟨b, rfl⟩ := h
    exact (hskip b).imp_right .inl
  | skp | sknp =>
    obtain ⟨-, b, rfl⟩ := h
    exact (hskip b).imp_right .inl
  | ldVxK =>
    obtain rfl | ⟨b, rfl⟩ := h
    · exact .inr (.inr (.inl rfl))
    · exact .inl rfl
  | _ => exact .inl (h.frame .pc (by simp [changedParts]))

/-- The stack an effect leaves: the old one, or the old one with PC pushed. -/
theorem Effect.stack_cases (h : Effect s t i) :
    t.stack = s.stack ∨ ∃ hsp : s.sp.val < 16, t.stack = s.stack.set s.sp.val s.pc := by
  cases i with
  | ret =>
    obtain ⟨hsp, rfl⟩ := h
    exact .inl rfl
  | call nnn =>
    obtain ⟨hsp, rfl⟩ := h
    exact .inr ⟨hsp, rfl⟩
  | _ => exact .inl (h.frame .stack (by simp [changedParts])).2

/-! ### The fault record -/

theorem recordTrue_running_iff (hs : s.status = .running) :
    s.RecordTrue ↔ s.fcause = .none ∧ s.fpc = 0 ∧ s.finfo = 0 := by
  simp only [State.RecordTrue, hs]

/-- The record of a state is a matter of the fault part while RUNNING. -/
theorem RecordTrue.of_same_fault (h : s.RecordTrue) (hs : s.status = .running) (hsame : Part.fault.same s t) :
    t.RecordTrue := by
  obtain ⟨hst, hfc, hfp, hfi⟩ := hsame
  rw [recordTrue_running_iff (hst.trans hs), hfc, hfp, hfi]
  exact (recordTrue_running_iff hs).1 h

/-- A taken fault records the truth, with the condition of its cause (R124). -/
theorem CanFault.recordTrue (h : CanFault s i c n) (hp : s.pc0.toNat ≤ 4094) : (s.raiseAt s.pc0 c n).RecordTrue := by
  cases h with
  | call nnn hsp => exact ⟨rfl, hp, hsp, rfl⟩
  | ret hsp => exact ⟨rfl, hp, hsp, rfl⟩
  | drw x y k hr | ldRegs x hr | stRegs x hr | ldB x hr =>
    have hr := (rangeOk_eq_false_iff s _).1 hr
    exact ⟨rfl, hp, by rw [raiseAt_idx]; omega, toNat_firstBad s⟩
  | skp x hk | sknp x hk =>
    have hw : ((s.reg x).setWidth 17).toNat = (s.reg x).toNat := BitVec.toNat_setWidth_of_le (by decide)
    have hlt := (s.reg x).isLt
    exact ⟨rfl, hp, by rw [raiseAt_finfo, hw]; omega, by rw [raiseAt_finfo, hw]; omega⟩

theorem recordTrue_fetchFault (hp : 4094 < s.pc.toNat) : s.fetchFault.RecordTrue :=
  ⟨rfl, hp, BitVec.toNat_setWidth_of_le (by decide)⟩

/-! ### The invariant through a step -/

/-- Taking a fault leaves memory and stack, and PC is the address of the instruction. -/
theorem State.Inv.raiseAt (h : s.Inv) {w : Word} (hw : w.toNat ≤ 0x10FE) (hr : (s.raiseAt w c n).RecordTrue) :
    (s.raiseAt w c n).Inv :=
  ⟨h.memory, hw, h.stackBound, hr⟩

theorem toNat_advance_pc (hp : s.pc.toNat ≤ 4094) : s.advance.pc.toNat = s.pc.toNat + 2 := by
  rw [advance_pc, BitVec.toNat_add]
  exact Nat.mod_eq_of_lt (by change s.pc.toNat + 2 < 65536; omega)

theorem State.Inv.advance (h : s.Inv) (hs : s.status = .running) (hp : s.pc.toNat ≤ 4094) : s.advance.Inv :=
  ⟨h.memory, by rw [toNat_advance_pc hp]; omega, h.stackBound, RecordTrue.of_same_fault h.record hs ⟨rfl, rfl, rfl, rfl⟩⟩

/-- An effect keeps the invariant, run as a step runs it: RUNNING, with PC incremented from a fetched address. -/
theorem State.Inv.effect (h : s.Inv) (hs : s.status = .running) (hp0 : s.pc0.toNat ≤ 4094) (hp : s.pc.toNat ≤ 4096)
    (he : Effect s t i) : t.Inv where
  memory := he.mem_wf h.memory
  pcBound := by
    obtain hpc | hpc | hpc | ⟨nnn, hpc⟩ | ⟨b, nnn, hpc⟩ | ⟨k, hpc⟩ := he.pc_cases <;> rw [hpc]
    · omega
    · rw [BitVec.toNat_add]
      exact (Nat.mod_le _ _).trans (by change s.pc.toNat + 2 ≤ _; omega)
    · omega
    · have := zextAddr_toNat_le nnn
      omega
    · have hb := b.isLt
      have hn := nnn.isLt
      rw [zextReg_add_zextAddr_toNat]
      omega
    · have := h.stackBound k
      omega
  stackBound k := by
    obtain hst | ⟨hsp, hst⟩ := he.stack_cases
    · rw [hst]
      exact h.stackBound k
    · simp only [hst, Vector.getElem_set]
      split
      · exact hp
      · exact h.stackBound k
  record := RecordTrue.of_same_fault h.record hs he.same_fault

theorem State.Inv.step (h : s.Inv) (ht : step s = .next t) : t.Inv := by
  obtain ⟨-, rfl⟩ | ⟨-, hp, rfl⟩ | ⟨hs, hp, ⟨i, -, he⟩ | ⟨_, -, rfl⟩⟩ := step_cases ht
  · exact h
  · exact h.raiseAt h.pcBound (recordTrue_fetchFault hp)
  · have hadv := h.advance hs hp
    have hp0 : s.advance.pc0.toNat ≤ 4094 := by rwa [pc0_advance]
    obtain ⟨c, n, hc, rfl⟩ | he := exec_cases he
    · exact hadv.raiseAt (by omega) (hc.recordTrue hp0)
    · exact hadv.effect hs hp0 (by rw [toNat_advance_pc hp]; omega) he
  · exact h.advance hs hp

/-- Settles O56: `State.Inv.step`, which runs the effect or the fault on the state with PC incremented. -/
theorem everyStepKeepsTheInvariant : Obligations.EveryStepKeepsTheInvariant := fun _ _ h ht => h.step ht

/-! ### The invariant under the host's operations -/

theorem inv_resetWith (font : Vector Byte 80) (r : Byte) (d : Nat) : (State.resetWith font r d).Inv where
  memory := resetWith_mem_wf font r d
  pcBound := show (BitVec.ofNat 16 Config.progBase).toNat ≤ 0x10FE by decide
  stackBound k := by
    rw [show (State.resetWith font r d).stack[k.val] = 0 from Vector.getElem_replicate ..]
    decide
  record := ⟨rfl, rfl, rfl⟩

/-- Settles O57: RESET's values, whatever FONT and the input are. -/
theorem resetHasTheInvariant : Obligations.ResetHasTheInvariant := inv_resetWith _ _ _

theorem State.Inv.between (h : s.Inv) {op : HostOp} {r : OpResult} (hb : betweenSteps op = true)
    (hp : perform op s = .next (r, t)) : t.Inv := by
  obtain rfl | rfl | ⟨image, -, hi, rfl⟩ | ⟨k, pressed, -, rfl⟩ := perform_between_cases hb hp
  · exact h
  · exact ⟨h.memory, h.pcBound, h.stackBound, h.record⟩
  · exact ⟨opLoad_mem_wf h.memory hi, h.pcBound, h.stackBound, h.record⟩
  · exact ⟨h.memory, h.pcBound, h.stackBound, h.record⟩

theorem State.Inv.perform (h : s.Inv) {op : HostOp} {r : OpResult} (hp : perform op s = .next (r, t)) : t.Inv := by
  cases op with
  | reset =>
    cases hp
    exact inv_resetWith _ _ _
  | step b =>
    obtain ⟨u, hu⟩ := step_next (s.withRnd b)
    cases hp.symm.trans (perform_step hu)
    have hrnd : (s.withRnd b).Inv := ⟨h.memory, h.pcBound, h.stackBound, h.record⟩
    exact hrnd.step hu
  | load | tick | key | readFb => exact h.between rfl hp

/-- Settles O58: one operation by `State.Inv.perform`, a schedule by `runSchedule_keeps`. -/
theorem everyOperationKeepsTheInvariant : Obligations.EveryOperationKeepsTheInvariant :=
  ⟨fun _ _ _ _ h hp => h.perform hp,
    fun _ _ _ _ h hr => runSchedule_keeps (P := State.Inv) (fun _ _ _ _ _ hs hp => hs.perform hp) h hr⟩

end Sys2Proof.Machine
end

section
/-! SUPPORT. Which instructions write each part of the state (spec/10_state.md R28), which parts of it no instruction but a
few reads, and the obligations on both. -/

namespace Sys2Proof.Machine

variable {s t : State} {i : Instr} {c : FaultCause} {n : Info}

/-! ### What an instruction changes -/

theorem CanFault.canFault (h : CanFault s i c n) : canFault i = true := by
  cases h <;> rfl

theorem CanFault.cause_ne_none (h : CanFault s i c n) : c ≠ .none := by
  cases h <;> exact FaultCause.noConfusion

/-- A part that an instruction changed is one of its effect's, or PC or the fault record in a taken fault. -/
theorem exec_changes (h : exec i s = .next t) {p : Part} (hp : ¬p.same s t) :
    p ∈ changedParts i ∨ (p ∈ [.pc, .fault] ∧ ∃ c n, CanFault s i c n ∧ t = s.raiseAt s.pc0 c n) := by
  obtain ⟨c, n, hc, rfl⟩ | he := exec_cases h
  · exact .inr ⟨by_contra fun hmem => hp (same_raiseAt s _ c n p hmem), c, n, hc, rfl⟩
  · exact .inl (he.mem_changedParts hp)

/-- The same for the parts that no fault touches. -/
theorem mem_changedParts_of_exec (h : exec i s = .next t) {p : Part} (hp : ¬p.same s t) (hne : p ∉ [.pc, .fault]) :
    p ∈ changedParts i :=
  (exec_changes h hp).resolve_right fun ⟨hmem, _⟩ => hne hmem

/-- The registers an effect changes (R94, D12): its destination, its flag, the range it loads. -/
theorem Effect.registers (h : Effect s t i) {q : RegIdx} (hq : t.reg q ≠ s.reg q) :
    destReg i = some q ∨ (q = 15 ∧ writesFlag i = true) ∨ ∃ x, i = .ldRegs x ∧ q.val ≤ x.val := by
  have hreg : ∀ {x b}, (s.setReg x b).reg q ≠ s.reg q → q = x := fun {x b} hne =>
    by_contra fun hqx => hne (reg_setReg_ne s b hqx)
  cases i with
  | ldImm | addImm | ldReg | orReg | andReg | xorReg | ldVxDt =>
    obtain ⟨b, rfl⟩ := h
    exact .inl (congrArg some (hreg hq).symm)
  | rnd =>
    cases h
    exact .inl (congrArg some (hreg hq).symm)
  | ldVxK =>
    obtain rfl | ⟨b, rfl⟩ := h
    · exact absurd rfl hq
    · exact .inl (congrArg some (hreg hq).symm)
  | addReg x | sub x | shr x | subn x | shl x =>
    obtain ⟨p, rfl⟩ := h
    by_cases h15 : q = 15
    · exact .inr (.inl ⟨h15, rfl⟩)
    · have hqx : q = x := by_contra fun hqx => hq (by rw [reg_setWithFlag, if_neg h15, if_neg hqx])
      exact .inl (congrArg some hqx.symm)
  | drw =>
    obtain ⟨-, rfl⟩ := h
    exact .inr (.inl ⟨by_contra fun h15 => hq (reg_setReg_ne _ _ h15), rfl⟩)
  | ldRegs x =>
    obtain ⟨-, rfl⟩ := h
    refine .inr (.inr ⟨x, rfl, by_contra fun hqx => hq ?_⟩)
    rw [reg_setRegs, List.getElem?_eq_none (by simpa using hqx), Option.getD_none]
  | _ => exact absurd (h.frame .regs (by simp [changedParts]) q) hq

theorem registers_of_exec (h : exec i s = .next t) {q : RegIdx} (hq : t.reg q ≠ s.reg q) :
    destReg i = some q ∨ (q = 15 ∧ writesFlag i = true) ∨ ∃ x, i = .ldRegs x ∧ q.val ≤ x.val := by
  obtain ⟨c, n, -, rfl⟩ | he := exec_cases h
  · exact absurd rfl hq
  · exact he.registers hq

/-- Settles O25: `registers_of_exec`. -/
theorem registersChangeOnlyAsListed : Obligations.RegistersChangeOnlyAsListed := fun _ _ _ _ h hq =>
  registers_of_exec h hq

/-- Only CALL changes the entries of the stack: a return leaves the popped one in place (D23). -/
theorem call_of_stack_ne (h : exec i s = .next t) (hne : t.stack ≠ s.stack) : ∃ nnn, i = .call nnn := by
  obtain ⟨c, n, -, rfl⟩ | he := exec_cases h
  · exact absurd rfl hne
  · cases i with
    | call nnn => exact ⟨nnn, rfl⟩
    | ret =>
      obtain ⟨hsp, rfl⟩ := he
      exact absurd rfl hne
    | _ => exact absurd (he.frame .stack (by simp [changedParts])).2 hne

/-! The columns of the table, read off `changedParts`. -/

theorem index_mem_changedParts (h : .index ∈ changedParts i) :
    (∃ nnn, i = .ldI nnn) ∨ (∃ x, i = .addI x) ∨ ∃ x, i = .ldF x := by
  cases i <;> simp [changedParts] at h ⊢

theorem pc_mem_changedParts (h : .pc ∈ changedParts i) : movesPc i = true := by
  cases i <;> simp [changedParts] at h <;> rfl

theorem stack_mem_changedParts (h : .stack ∈ changedParts i) : (∃ nnn, i = .call nnn) ∨ i = .ret := by
  cases i <;> simp [changedParts] at h ⊢

theorem memory_mem_changedParts (h : .memory ∈ changedParts i) : (∃ x, i = .ldB x) ∨ ∃ x, i = .stRegs x := by
  cases i <;> simp [changedParts] at h ⊢

theorem screen_mem_changedParts (h : .screen ∈ changedParts i) : i = .cls ∨ ∃ x y n, i = .drw x y n := by
  cases i <;> simp [changedParts] at h ⊢

theorem delay_mem_changedParts (h : .delay ∈ changedParts i) : ∃ x, i = .ldDtVx x := by
  cases i <;> simp [changedParts] at h ⊢

theorem sound_mem_changedParts (h : .sound ∈ changedParts i) : ∃ x, i = .ldStVx x := by
  cases i <;> simp [changedParts] at h ⊢

theorem input_mem_changedParts (h : .input ∈ changedParts i) : ∃ x nn, i = .rnd x nn := by
  cases i <;> simp [changedParts] at h ⊢

theorem not_mem_changedParts (i : Instr) : .keys ∉ changedParts i ∧ .fault ∉ changedParts i ∧ .font ∉ changedParts i := by
  cases i <;> simp [changedParts]

/-- Settles O55: each clause names one part; the part is in the frame of the effect, or the fault was taken. -/
theorem eachPartHasItsWriters : Obligations.EachPartHasItsWriters := fun i s t h => by
  obtain ⟨hkeys, hfault, hfont⟩ := not_mem_changedParts i
  refine ⟨fun q => registers_of_exec h,
    fun hne => index_mem_changedParts (mem_changedParts_of_exec h (p := .index) hne (by decide)),
    fun hne => ?_,
    fun hne => stack_mem_changedParts (mem_changedParts_of_exec h (p := .stack) (fun hs => hne hs.1) (by decide)),
    call_of_stack_ne h,
    fun ⟨a, hne⟩ => memory_mem_changedParts (mem_changedParts_of_exec h (p := .memory) (fun hs => hne (hs a)) (by decide)),
    fun ⟨y, x, hne⟩ => screen_mem_changedParts (mem_changedParts_of_exec h (p := .screen) (fun hs => hne (hs y x)) (by decide)),
    fun hne => delay_mem_changedParts (mem_changedParts_of_exec h (p := .delay) hne (by decide)),
    fun hne => sound_mem_changedParts (mem_changedParts_of_exec h (p := .sound) hne (by decide)),
    by_contra fun hne => hkeys (mem_changedParts_of_exec h (p := .keys) hne (by decide)),
    fun hne => ?_,
    by_contra fun hne => hfont (mem_changedParts_of_exec h (p := .font) hne (by decide)),
    fun hne => input_mem_changedParts (mem_changedParts_of_exec h hne (by decide))⟩
  · obtain hmem | ⟨-, c, n, hc, rfl⟩ := exec_changes h (p := .pc) hne
    · exact .inl (pc_mem_changedParts hmem)
    · exact .inr ⟨hc.canFault, c, n.toNat, takesFault_raiseAt s c n⟩
  · obtain hmem | ⟨-, c, n, hc, rfl⟩ := exec_changes h hne
    · exact absurd hmem hfault
    · exact ⟨hc.canFault, c, n.toNat, hc.cause_ne_none, takesFault_raiseAt s c n⟩

/-! ### Reading neither the stack nor the input -/

/-- The state with another stack and another input byte: what only CALL, RET and CXNN can tell from it. -/
def State.withUnread (s : State) (k : Vector Word 16) (r : Byte) : State := { s with stack := k, rnd := r }

theorem skipIf_withUnread (b : Bool) (k : Vector Word 16) (r : Byte) :
    (s.withUnread k r).skipIf b = (s.skipIf b).withUnread k r := by
  cases b <;> rfl

/-- An instruction's end commutes with the change, as its result does. -/
theorem commit_withUnread {k : Vector Word 16} {r : Byte} {o : Option State} (h : s.commit c n o = .next t) :
    (s.withUnread k r).commit c n (o.map (·.withUnread k r)) = .next (t.withUnread k r) := by
  cases o <;> cases h <;> rfl

theorem storeBytes_withUnread (bs : List Byte) (k : Vector Word 16) (r : Byte) :
    (s.withUnread k r).storeBytes bs = (s.storeBytes bs).map (·.withUnread k r) := by
  obtain ⟨hr, hs⟩ | ⟨hr, hs⟩ := storeBytes_cases s bs <;> rw [hs]
  · exact if_pos hr
  · exact if_neg (by rw [show (s.withUnread k r).rangeOk bs.length = false from hr]; decide)

/-- Every instruction but CALL, RET and CXNN runs alike under another stack and another input byte. -/
theorem exec_withUnread (hcall : ∀ nnn, i ≠ .call nnn) (hret : i ≠ .ret) (hrnd : ∀ x nn, i ≠ .rnd x nn)
    (h : exec i s = .next t) (k : Vector Word 16) (r : Byte) :
    exec i (s.withUnread k r) = .next (t.withUnread k r) := by
  cases i with
  | call nnn => exact absurd rfl (hcall nnn)
  | ret => exact absurd rfl hret
  | rnd x nn => exact absurd rfl (hrnd x nn)
  | seImm | sneImm | seReg | sneReg =>
    cases h
    exact congrArg Host.Outcome.next (skipIf_withUnread ..)
  | drw | ldRegs =>
    have hc := commit_withUnread (k := k) (r := r) h
    rwa [Option.map_map] at hc
  | ldB | stRegs =>
    have hc := commit_withUnread (k := k) (r := r) h
    rwa [← storeBytes_withUnread] at hc
  | skp | sknp =>
    have hc := commit_withUnread (k := k) (r := r) h
    rw [Option.map_map] at hc
    simp only [exec, execSkp, execSknp, skipIf_withUnread]
    exact hc
  | ldVxK x =>
    simp only [exec, execLdVxK] at h ⊢
    rw [show (s.withUnread k r).firstKey = s.firstKey from rfl]
    split at h <;> cases h <;> rfl
  | _ =>
    cases h
    rfl

/-! ### CALL and RET -/

/-- CALL with an entry free (R72, R79). -/
def State.called (s : State) (nnn : Addr12) (h : s.sp.val < 16) : State :=
  ({ s with stack := s.stack.set s.sp.val s.pc, sp := ⟨s.sp.val + 1, by omega⟩ } : State).jump (zextAddr nnn)

/-- RET with an entry to take (R73, R79). -/
def State.returned (s : State) (h : 1 ≤ s.sp.val) : State :=
  ({ s with sp := ⟨s.sp.val - 1, by omega⟩ } : State).jump s.stack[s.sp.val - 1]

theorem exec_call_of_room (nnn : Addr12) (h : s.sp.val < 16) : exec (.call nnn) s = .next (s.called nnn h) := by
  simp [exec, execCall, State.push, h, State.called]

theorem exec_ret_of_entry (h : 1 ≤ s.sp.val) : exec .ret s = .next (s.returned h) := by
  simp [exec, execRet, State.pop, h, State.returned]

/-- The stack is full, or has an entry free. -/
theorem sp_full_or_room (s : State) : s.sp = 16 ∨ s.sp.val < 16 := by
  obtain ⟨h, -⟩ | ⟨h, -⟩ := push_cases s 0
  · exact .inl h
  · exact .inr h

/-- The stack is empty, or has an entry to take. -/
theorem sp_empty_or_entry (s : State) : s.sp = 0 ∨ 1 ≤ s.sp.val := by
  obtain ⟨h, -⟩ | ⟨h, -⟩ := pop_cases s
  · exact .inl h
  · exact .inr h

/-! ### The input byte -/

/-- Every instruction but CXNN runs alike under another input byte. -/
theorem exec_withRnd (hrnd : ∀ x nn, i ≠ .rnd x nn) (h : exec i s = .next t) (r : Byte) :
    exec i (s.withRnd r) = .next (t.withRnd r) := by
  by_cases hcall : ∃ nnn, i = .call nnn
  · obtain ⟨nnn, rfl⟩ := hcall
    obtain hsp | hsp := sp_full_or_room s
    · rw [exec_of_canFault (.call nnn hsp)] at h
      cases h
      exact exec_of_canFault (s := s.withRnd r) (.call nnn hsp)
    · rw [exec_call_of_room nnn hsp] at h
      cases h
      exact exec_call_of_room (s := s.withRnd r) nnn hsp
  have hcall : ∀ nnn, i ≠ .call nnn := fun nnn hi => hcall ⟨nnn, hi⟩
  by_cases hret : i = .ret
  · subst hret
    obtain hsp | hsp := sp_empty_or_entry s
    · rw [exec_of_canFault (.ret hsp)] at h
      cases h
      exact exec_of_canFault (s := s.withRnd r) (.ret hsp)
    · rw [exec_ret_of_entry hsp] at h
      cases h
      exact exec_ret_of_entry (s := s.withRnd r) hsp
  · have hstack : t.stack = s.stack := by_contra fun hne =>
      have ⟨nnn, hi⟩ := call_of_stack_ne h hne
      hcall nnn hi
    have hexec := exec_withUnread hcall hret hrnd h s.stack r
    have ht : t.withUnread s.stack r = t.withRnd r := by
      rw [← hstack]
      rfl
    rwa [ht] at hexec

/-- Settles O24: `exec_withRnd`. -/
theorem onlyRandomReadsTheInput : Obligations.OnlyRandomReadsTheInput := fun _ _ _ r hrnd h => exec_withRnd hrnd h r

/-! ### The entries at and above SP -/

section
variable {k : Vector Word 16} (hk : ∀ j : Fin 16, j.val < s.sp.val → k[j.val] = s.stack[j.val])
include hk

/-- CALL pushes the same word at the same place. -/
theorem call_agreeLive {nnn : Addr12} (h : exec (.call nnn) s = .next t) :
    ∃ t', exec (.call nnn) { s with stack := k } = .next t' ∧ t.AgreeLive t' := by
  obtain hsp | hsp := sp_full_or_room s
  · rw [exec_of_canFault (.call nnn hsp)] at h
    cases h
    exact ⟨_, exec_of_canFault (s := { s with stack := k }) (.call nnn hsp), hk, rfl⟩
  · rw [exec_call_of_room nnn hsp] at h
    cases h
    refine ⟨_, exec_call_of_room (s := { s with stack := k }) nnn hsp, fun j hj => ?_, rfl⟩
    simp only [State.called, jump_stack, jump_sp, Vector.getElem_set] at hj ⊢
    split
    · rfl
    · exact hk j (by omega)

/-- RET takes the top entry, which is live. -/
theorem ret_agreeLive (h : exec .ret s = .next t) :
    ∃ t', exec .ret { s with stack := k } = .next t' ∧ t.AgreeLive t' := by
  obtain hsp | hsp := sp_empty_or_entry s
  · rw [exec_of_canFault (.ret hsp)] at h
    cases h
    exact ⟨_, exec_of_canFault (s := { s with stack := k }) (.ret hsp), hk, rfl⟩
  · rw [exec_ret_of_entry hsp] at h
    cases h
    have htop := hk ⟨s.sp.val - 1, by omega⟩ (by change s.sp.val - 1 < s.sp.val; omega)
    refine ⟨_, exec_ret_of_entry (s := { s with stack := k }) hsp, fun j hj => ?_, ?_⟩
    · exact hk j (by change j.val < s.sp.val - 1 at hj; omega)
    · simp only [State.returned, State.jump]
      rw [htop]

/-- Every other instruction but CXNN leaves stack and input, and runs alike by `exec_withUnread`. -/
theorem exec_agreeLive (h : exec i s = .next t) : ∃ t', exec i { s with stack := k } = .next t' ∧ t.AgreeLive t' := by
  by_cases hcall : ∃ nnn, i = .call nnn
  · obtain ⟨nnn, rfl⟩ := hcall
    exact call_agreeLive hk h
  by_cases hret : i = .ret
  · subst hret
    exact ret_agreeLive hk h
  by_cases hrnd : ∃ x nn, i = .rnd x nn
  · obtain ⟨x, nn, rfl⟩ := hrnd
    cases h
    exact ⟨_, rfl, hk, rfl⟩
  have hstack : Part.stack.same s t := by_contra fun hne =>
    (stack_mem_changedParts (mem_changedParts_of_exec h hne (by decide))).elim hcall hret
  have hinput : Part.input.same s t := by_contra fun hne =>
    hrnd (input_mem_changedParts (mem_changedParts_of_exec h hne (by decide)))
  obtain ⟨hsp, hst⟩ := hstack
  obtain ⟨hin, -⟩ := hinput
  have hexec := exec_withUnread (fun nnn hi => hcall ⟨nnn, hi⟩) hret (fun x nn hi => hrnd ⟨x, nn, hi⟩) h k s.rnd
  refine ⟨_, hexec, fun j hj => ?_, ?_⟩
  · rw [hst]
    exact hk j (hsp ▸ hj)
  · rw [← hin]
    rfl

/-- A step of the two states does the same of the four things a step can do. -/
theorem step_agreeLive (h : step s = .next t) : ∃ t', step { s with stack := k } = .next t' ∧ t.AgreeLive t' := by
  obtain ⟨hs, rfl⟩ | ⟨hs, hp, rfl⟩ | ⟨hs, hp, ⟨i, hd, he⟩ | ⟨r, hd, rfl⟩⟩ := step_cases h
  · exact ⟨_, step_of_faulted hs, hk, rfl⟩
  · exact ⟨_, step_of_fetchFault hs (fetchWord_eq_none (s := { s with stack := k }) hp), hk, rfl⟩
  · obtain ⟨t', ht', hagree⟩ := exec_agreeLive (s := s.advance) hk he
    have hstep := step_of_instr (s := { s with stack := k }) hs (fetchWord_eq_some (s := { s with stack := k }) hp) hd
    exact ⟨t', hstep.trans ht', hagree⟩
  · exact ⟨_, step_of_unrecognized hs (fetchWord_eq_some (s := { s with stack := k }) hp) hd, hk, rfl⟩

end

/-- Settles O59: the states by `step_agreeLive`, and the result reads no stack entry. -/
theorem deadStackEntriesAreUnobservable : Obligations.DeadStackEntriesAreUnobservable := fun s s' t hlive ht => by
  obtain ⟨hk, hs'⟩ := hlive
  generalize s'.stack = k at hk hs'
  subst hs'
  obtain ⟨t', ht', hagree⟩ := step_agreeLive hk ht
  refine ⟨t', ht', hagree, ?_⟩
  rw [hagree.rest]
  rfl

end Sys2Proof.Machine
end

section
/-! SUPPORT. The cycle, the faults and the results of the operations (spec/40_cycle_and_dispatch.md,
spec/60_exceptions.md section 2), and the obligations on them. -/

namespace Sys2Proof.Machine

variable {s t : State} {i : Instr} {c : FaultCause} {n : Info} {op : Word}

/-! ### The fetch and the decoded instruction -/

/-- Settles O7: `step_of_instr` at the word that `fetchWord_eq_some` fetches. -/
theorem stepRunsTheDecodedInstruction : Obligations.StepRunsTheDecodedInstruction := fun _ _ hs hp hd =>
  step_of_instr hs (fetchWord_eq_some hp) hd

/-- The bytes of a word stored at PC are fetched as the word (R31). -/
theorem fetchWord_writeBytes_bytesOfWord (hp : s.pc.toNat ≤ 4094) (w : Word) :
    (s.writeBytes s.pc.toNat (bytesOfWord w)).fetchWord = some w := by
  have h := fetchWord_withFetchWord hp w.toNat
  simpa [State.withFetchWord, Nat.not_lt.2 hp, Nat.mod_eq_of_lt w.isLt] using h

/-- Settles O8: the word fetched has its bytes in the order of `wordOfBytes`, and `bytesOfWord` stores them so. -/
theorem fetchIsBigEndian : Obligations.FetchIsBigEndian := fun _ hp =>
  ⟨⟨_, fetchWord_eq_some hp, high_wordOfBytes _ _, low_wordOfBytes _ _⟩,
    fun i => fetchWord_writeBytes_bytesOfWord hp (encode i)⟩

/-! ### The result of a STEP (R64, R65) -/

theorem stepResult_of_faulted (ht : t.status = .faulted) : stepResult s t = .fault t.fcause := by
  simp only [stepResult, ht]

theorem stepResult_of_instr (hf : s.fetchWord = some op) (hd : decode op = .ok i) (ht : t.status = .running) :
    stepResult s t = .done := by
  have hnone : s.undecEvent = none := by
    cases hs : s.status <;> simp only [State.undecEvent, hs, hf, hd]
  simp only [stepResult, ht, hnone]

theorem stepResult_of_unrecognized {r : Reject} (hs : s.status = .running) (hf : s.fetchWord = some op)
    (hd : decode op = .error r) (ht : t.status = .running) : stepResult s t = .doneUndec op s.pc := by
  have hsome : s.undecEvent = some (op, s.pc) := by
    simp only [State.undecEvent, hs, hf, hd]
  simp only [stepResult, ht, hsome]

/-- A STEP answers DONE, UNDEC or FAULT, and FAULT exactly when it leaves the machine FAULTED. -/
theorem stepResult_cases (s t : State) :
    (t.status = .faulted ∧ stepResult s t = .fault t.fcause) ∨
    (t.status = .running ∧ (stepResult s t = .done ∨ ∃ op addr, stepResult s t = .doneUndec op addr)) := by
  cases ht : t.status with
  | faulted => exact .inl ⟨rfl, stepResult_of_faulted ht⟩
  | running =>
    refine .inr ⟨rfl, ?_⟩
    cases hu : s.undecEvent with
    | none => exact .inl (by simp only [stepResult, ht, hu])
    | some e => exact .inr ⟨e.1, e.2, by simp only [stepResult, ht, hu]⟩

/-- Settles O9: the step is the increment, and the event is read from the state before it. -/
theorem unrecognizedWordIsReportedNoOp : Obligations.UnrecognizedWordIsReportedNoOp := fun s op hs hp hop hd => by
  subst hop
  refine ⟨step_of_unrecognized hs (fetchWord_eq_some hp) hd, fun r => ?_⟩
  have hres := stepResult_of_unrecognized (t := (s.withRnd r).advance) hs (fetchWord_eq_some hp) hd hs
  rw [perform_step (step_of_unrecognized (s := s.withRnd r) hs (fetchWord_eq_some (s := s.withRnd r) hp) hd), hres]
  rfl

/-- Settles O10: the fault of the fetch, whose FINFO is the 16-bit PC in 17 bits. -/
theorem fetchOutsideMemoryFaults : Obligations.FetchOutsideMemoryFaults := fun s hs hp =>
  ⟨s.fetchFault, step_of_fetchFault hs (fetchWord_eq_none hp), rfl, BitVec.toNat_setWidth_of_le (by decide)⟩

/-! ### Faults -/

/-- Settles O11: a STEP does nothing, the operations between STEPs leave PC, registers and the record by their frame. -/
theorem faultedIsStickyUntilReset : Obligations.FaultedIsStickyUntilReset := fun s hs => by
  have hstep : ∀ r, perform (.step r) s = .next (.fault s.fcause, { s with rnd := r }) := fun r => by
    rw [perform_step (step_of_faulted (s := s.withRnd r) hs), stepResult_of_faulted (t := s.withRnd r) hs]
    rfl
  refine ⟨step_of_faulted hs, hstep, fun op hop => ?_, _, rfl, rfl, rfl⟩
  by_cases hb : ∃ b, op = .step b
  · obtain ⟨b, rfl⟩ := hb
    exact ⟨_, _, hstep b, hs, rfl, rfl, rfl, rfl, rfl⟩
  · obtain ⟨r, t, hp, hsame, -⟩ := perform_between (s := s) (betweenSteps_of_ne hop fun b hb' => hb ⟨b, hb'⟩)
    obtain ⟨hst, hfc, hfp, hfi⟩ := hsame .fault (by decide)
    have hv : t.v = s.v := Vector.ext fun k hk => hsame .regs (by decide) ⟨k, hk⟩
    exact ⟨r, t, hp, hst.trans hs, hfc, hfp, hfi, hsame .pc (by decide), hv⟩

/-- An instruction of a RUNNING machine that leaves it FAULTED took its fault. -/
theorem canFault_of_faulted (hs : s.status = .running) (h : exec i s = .next t) (ht : t.status = .faulted) :
    ∃ c n, CanFault s i c n ∧ t = s.raiseAt s.pc0 c n := by
  refine (exec_cases h).resolve_right fun he => ?_
  cases (he.status_eq.trans hs).symm.trans ht

/-- Settles O12: the cycle raised the fault of the fetch, or that of the instruction on the state with PC incremented. -/
theorem faultsArePrecise : Obligations.FaultsArePrecise := fun s t hs h ht => by
  obtain ⟨hs', rfl⟩ | ⟨-, -, rfl⟩ | ⟨-, -, ⟨i, -, he⟩ | ⟨_, -, rfl⟩⟩ := step_cases h
  · cases hs.symm.trans ht
  · exact ⟨rfl, FaultCause.noConfusion⟩
  · obtain ⟨c, n, hc, rfl⟩ := canFault_of_faulted (s := s.advance) hs he ht
    rw [pc0_advance]
    exact ⟨rfl, hc.cause_ne_none⟩
  · cases hs.symm.trans ht

/-- Settles O14: an instruction that faults meets a condition of `CanFault`, and the range of DRW is then not empty. -/
theorem onlyTheListedInstructionsFault : Obligations.OnlyTheListedInstructionsFault := fun i s t hs h ht => by
  obtain ⟨c, n, hc, -⟩ := canFault_of_faulted hs h ht
  cases hc with
  | drw x y k hr =>
    have hk := (rangeOk_eq_false_iff s k.val).1 hr
    have hne : k ≠ 0 := fun h0 => absurd hk.1 (by rw [h0]; decide)
    simp [hne]
  | _ => simp

/-! ### The table of causes (R124) -/

/-- The instruction's row of the table, as a condition on the state the instruction runs on. -/
theorem expectedFault_of_canFault (hp : s.pc.toNat ≤ 4094)
    (hd : decode (wordOfBytes (s.readByte s.pc.toNat) (s.readByte (s.pc.toNat + 1))) = .ok i)
    (h : CanFault s.advance i c n) : expectedFault s = some (c, n.toNat) := by
  rw [expectedFault, if_neg (Nat.not_lt.2 hp), hd]
  cases h with
  | call nnn hsp => exact if_pos hsp
  | ret hsp => exact if_pos hsp
  | drw x y k hr =>
    have hr := (rangeOk_eq_false_iff s k.val).1 hr
    rw [toNat_firstBad]
    exact if_pos ⟨hr.1, by omega⟩
  | ldRegs x hr | stRegs x hr | ldB x hr =>
    have hr := (rangeOk_eq_false_iff s _).1 hr
    rw [toNat_firstBad]
    exact if_pos (by omega)
  | skp x hk | sknp x hk =>
    rw [BitVec.toNat_setWidth_of_le (by decide)]
    exact if_pos hk

/-- An instruction that has its effect is in no row of the table that applies. -/
theorem expectedFault_of_effect (hp : s.pc.toNat ≤ 4094)
    (hd : decode (wordOfBytes (s.readByte s.pc.toNat) (s.readByte (s.pc.toNat + 1))) = .ok i)
    (h : Effect s.advance t i) : expectedFault s = none := by
  have hfits : ∀ {k}, s.rangeOk k = true → ¬(0 < k ∧ 4095 < s.idx.toNat + (k - 1)) := fun {k} hr hbad =>
    Bool.false_ne_true (((rangeOk_eq_false_iff s k).2 hbad).symm.trans hr)
  rw [expectedFault, if_neg (Nat.not_lt.2 hp), hd]
  cases i with
  | call nnn =>
    obtain ⟨hsp, -⟩ := h
    exact if_neg fun h16 => absurd hsp (by rw [advance_sp, h16]; decide)
  | ret =>
    obtain ⟨hsp, -⟩ := h
    exact if_neg fun h0 => absurd hsp (by rw [advance_sp, h0]; decide)
  | drw x y k =>
    have hk := hfits h.1
    exact if_neg (by omega)
  | ldRegs x | stRegs x | ldB x =>
    have hk := hfits h.1
    exact if_neg (by omega)
  | skp x | sknp x =>
    obtain ⟨hk, -⟩ := h
    exact if_neg (by change ¬15 < (s.advance.reg x).toNat; omega)
  | _ => rfl

/-- Settles O13: `expectedFault_of_canFault` when the instruction faults, `expectedFault_of_effect` when it does not. -/
theorem faultsAreThoseOfTheTable : Obligations.FaultsAreThoseOfTheTable := fun s hs => by
  obtain ⟨t, ht⟩ := step_next s
  refine ⟨t, ht, ?_⟩
  obtain ⟨hs', -⟩ | ⟨-, hp, rfl⟩ | ⟨-, hp, ⟨i, hd, he⟩ | ⟨r, hd, rfl⟩⟩ := step_cases ht
  · cases hs.symm.trans hs'
  · rw [expectedFault, if_pos hp]
    exact ⟨rfl, rfl, BitVec.toNat_setWidth_of_le (by decide)⟩
  · obtain ⟨c, n, hc, rfl⟩ | he := exec_cases he
    · rw [expectedFault_of_canFault hp hd hc]
      exact ⟨rfl, rfl, rfl⟩
    · rw [expectedFault_of_effect hp hd he]
      exact he.status_eq.trans hs
  · rw [expectedFault, if_neg (Nat.not_lt.2 hp), hd]
    exact hs

/-! ### The operations answer -/

theorem stepResult_ne_error (s t : State) (e : HostError) : stepResult s t ≠ .error e := by
  obtain ⟨-, h⟩ | ⟨-, h | ⟨_, _, h⟩⟩ := stepResult_cases s t <;> rw [h] <;> exact OpResult.noConfusion

/-- Every operation answers; it answers a host error exactly outside the contract, and then leaves the state (R132). -/
theorem perform_next (op : HostOp) (s : State) : ∃ r t, perform op s = .next (r, t) ∧
    ((∃ e, r = .error e) ↔ op.inContract = false) ∧ (op.inContract = false → t = s) := by
  cases op with
  | reset | tick | readFb => exact ⟨_, _, rfl, by simp [HostOp.inContract], by simp [HostOp.inContract]⟩
  | step b =>
    obtain ⟨t, ht⟩ := step_next (s.withRnd b)
    exact ⟨_, _, perform_step ht, by simp [HostOp.inContract, stepResult_ne_error], by simp [HostOp.inContract]⟩
  | load image =>
    cases hi : imageFits image
    · exact ⟨_, _, perform_load_refused hi, by simp [HostOp.inContract, hi], fun _ => rfl⟩
    · exact ⟨_, _, perform_load hi, by simp [HostOp.inContract, hi], by simp [HostOp.inContract, hi]⟩
  | key k pressed =>
    by_cases hk : k < 16
    · exact ⟨_, _, perform_key hk pressed, by simp [HostOp.inContract, hk], by simp [HostOp.inContract, hk]⟩
    · exact ⟨_, _, perform_key_refused hk pressed, by simp [HostOp.inContract, hk], fun _ => rfl⟩

/-- Settles O15: a step by `step_next`, an operation by `perform_next`. -/
theorem everyOperationAnswersAState : Obligations.EveryOperationAnswersAState := ⟨step_next, perform_next⟩

/-! ### A batch of cycles (R66) -/

/-- STEPs of a FAULTED machine answer its cause, and leave it (D2). -/
theorem runSchedule_steps_of_faulted (bs : List Byte) : ∀ {s : State}, s.status = .faulted →
    ∃ r, runSchedule (bs.map .step) s =
      .next (List.replicate bs.length (.fault s.fcause), { s with rnd := r }) := by
  induction bs with
  | nil => exact fun _ => ⟨_, rfl⟩
  | cons b bs ih =>
    intro s hs
    obtain ⟨r, hr⟩ := ih (s := s.withRnd b) hs
    have hp : perform (.step b) s = .next (.fault s.fcause, s.withRnd b) := by
      rw [perform_step (step_of_faulted (s := s.withRnd b) hs), stepResult_of_faulted (t := s.withRnd b) hs]
      rfl
    exact ⟨r, by rw [List.map_cons, runSchedule_cons hp, hr]; rfl⟩

/-- Settles O16: by induction on the batch; at the first FAULT the rest of the schedule is
`runSchedule_steps_of_faulted`. -/
theorem batchEqualsItsSteps : Obligations.BatchEqualsItsSteps := fun bs => by
  induction bs with
  | nil => exact fun s => ⟨[], s, s, rfl, rfl, le_rfl, by simp, by simp, rfl⟩
  | cons b bs ih =>
    intro s
    obtain ⟨t, ht⟩ := step_next (s.withRnd b)
    have hp := perform_step ht
    obtain ⟨hst, hr⟩ | ⟨-, hr⟩ := stepResult_cases s t
    · obtain ⟨r, hrun⟩ := runSchedule_steps_of_faulted bs hst
      rw [hr] at hp
      refine ⟨[.fault t.fcause], t, { t with rnd := r }, ?_, ?_, by simp, fun _ => hst, by simp, rfl⟩
      · simp only [runCycles, hp, OpResult.isFault, if_true]
      · rw [List.map_cons, runSchedule_cons hp, hrun]
        simp [consResult]
    · have hfault : (stepResult s t).isFault = false := by
        obtain h | ⟨_, _, h⟩ := hr <;> rw [h] <;> rfl
      obtain ⟨rs, t', u, hcyc, hrun, hlen, hshort, hno, hu⟩ := ih t
      refine ⟨stepResult s t :: rs, t', u, ?_, ?_, by simpa using hlen, by simpa using hshort, ?_, hu⟩
      · simp [runCycles, hp, hfault, hcyc, consResult]
      · rw [List.map_cons, runSchedule_cons hp, hrun]
        simp [consResult]
      · cases rs with
        | nil => simp
        | cons r rs => simpa [hfault] using hno

end Sys2Proof.Machine
end

section
/-! SUPPORT. The flag computations as numbers (spec/42_alu.md sections 3 to 6), and the obligations on the ALU. -/

namespace Sys2Proof.Machine

variable {s t : State}

/-- A result and a flag, in the terms that an obligation states them in. -/
theorem onlyRegAndFlag_of_eq (x : RegIdx) {p : Byte × Bool} {b : Byte} {flag : Prop} (hb : p.1 = b)
    (hflag : p.2 = true ↔ flag) : OnlyRegAndFlag x b flag s (s.setWithFlag x p) := by
  rw [← hb, ← propext hflag]
  exact onlyRegAndFlag_setWithFlag s x p

/-- Settles O19: each of the three is one register write. -/
theorem logicWritesNoFlag : Obligations.LogicWritesNoFlag := fun s x _ =>
  ⟨⟨_, rfl, onlyReg_setReg s x _⟩, ⟨_, rfl, onlyReg_setReg s x _⟩, ⟨_, rfl, onlyReg_setReg s x _⟩⟩

/-- Settles O20: the 8-bit sum, and the carry `addFlag` computes from the sum of the numbers. -/
theorem addRegistersSetsCarry : Obligations.AddRegistersSetsCarry := fun _ x _ =>
  ⟨_, rfl, onlyRegAndFlag_of_eq x (byte_add_eq_ofNat_mod _ _) decide_eq_true_iff⟩

/-- The ALU's difference is the difference of the operands as integers, modulo 256 (R80). -/
theorem byte_sub_eq_ofInt (a b : Byte) : a - b = BitVec.ofInt 8 (a.toNat - b.toNat : Int) := by
  have ha := a.isLt
  have hb := b.isLt
  refine BitVec.eq_of_toNat_eq ?_
  rw [BitVec.toNat_sub, BitVec.toNat_ofInt]
  omega

/-- Settles O21: the 8-bit difference, and no borrow exactly when the subtrahend is not the larger number. -/
theorem subtractSetsNoBorrow : Obligations.SubtractSetsNoBorrow := fun _ x _ =>
  ⟨⟨_, rfl, onlyRegAndFlag_of_eq x (byte_sub_eq_ofInt _ _) decide_eq_true_iff⟩,
    ⟨_, rfl, onlyRegAndFlag_of_eq x (byte_sub_eq_ofInt _ _) decide_eq_true_iff⟩⟩

theorem byte_shiftRight_one (a : Byte) : a >>> 1 = BitVec.ofNat 8 (a.toNat / 2) := by
  have ha := a.isLt
  refine BitVec.eq_of_toNat_eq ?_
  rw [BitVec.toNat_ushiftRight, BitVec.toNat_ofNat, Nat.shiftRight_eq_div_pow]
  omega

theorem byte_shiftLeft_one (a : Byte) : a <<< 1 = BitVec.ofNat 8 (2 * a.toNat % 256) := by
  refine BitVec.eq_of_toNat_eq ?_
  rw [BitVec.toNat_shiftLeft, BitVec.toNat_ofNat, Nat.shiftLeft_eq]
  omega

theorem byte_lowBit_iff (a : Byte) : a.getLsbD 0 = true ↔ a.toNat % 2 = 1 := by
  rw [BitVec.getLsbD, Nat.testBit_zero, decide_eq_true_iff]

theorem byte_highBit_iff (a : Byte) : a.getLsbD 7 = true ↔ 128 ≤ a.toNat := by
  have ha := a.isLt
  rw [BitVec.getLsbD, Nat.testBit_eq_decide_div_mod_eq, decide_eq_true_iff]
  omega

/-- Settles O22: the shifts as halving and doubling, the flags as the lowest and the highest bit. -/
theorem shiftsIgnoreYAndKeepTheBitOut : Obligations.ShiftsIgnoreYAndKeepTheBitOut := fun _ x _ =>
  ⟨⟨_, rfl, onlyRegAndFlag_of_eq x (byte_shiftRight_one _) (byte_lowBit_iff _)⟩,
    ⟨_, rfl, onlyRegAndFlag_of_eq x (byte_shiftLeft_one _) (byte_highBit_iff _)⟩⟩

/-- Settles O23: a register write of the masked byte, and then the input is renewed, which no register sees. -/
theorem randomIsTheInputMasked : Obligations.RandomIsTheInputMasked := fun s x nn r => by
  have hwrite := onlyReg_setReg (s.withRnd r) x (r &&& nn)
  obtain ⟨hx, hq, hsame⟩ := hwrite
  have hinput : SameExcept [.input] s (s.withRnd r) := fun p hp => by
    cases p with
    | input => exact absurd (List.mem_singleton_self _) hp
    | _ => simp [Part.same, State.readByte, State.reg]
  exact ⟨((s.withRnd r).setReg x (r &&& nn)).renewRnd, rfl, hx, hq,
    (hinput.mono (by simp)).trans ((hsame.mono (by simp)).trans ((same_renewRnd _).mono (by simp)))⟩

end Sys2Proof.Machine
end

section
/-! SUPPORT. CALL and RET as updates of the stack, the jump to itself (spec/41_flow.md, spec/40_cycle_and_dispatch.md R67),
and the obligations on control flow. -/

namespace Sys2Proof.Machine

variable {s t : State}

theorem same_called (nnn : Addr12) (h : s.sp.val < 16) : SameExcept [.pc, .stack] s (s.called nnn h) :=
  Effect.frame (i := .call nnn) ⟨h, rfl⟩

theorem same_returned (h : 1 ≤ s.sp.val) : SameExcept [.pc, .stack] s (s.returned h) :=
  Effect.frame (i := .ret) ⟨h, rfl⟩

theorem called_stack (nnn : Addr12) (h : s.sp.val < 16) : (s.called nnn h).stack = s.stack.set s.sp.val s.pc := rfl

/-- A call keeps every entry but the one it pushes. -/
theorem called_stack_ne (nnn : Addr12) (h : s.sp.val < 16) {k : Fin 16} (hk : k.val ≠ s.sp.val) :
    (s.called nnn h).stack[k.val] = s.stack[k.val] := by
  simp only [called_stack, Vector.getElem_set_ne _ _ hk.symm]

/-- Settles O28: `exec_call_of_room` with an entry free, the fault with none. -/
theorem callPushesTheReturnAddress : Obligations.CallPushesTheReturnAddress := fun s nnn =>
  ⟨fun h => ⟨s.called nnn h, exec_call_of_room nnn h, zextAddr_toNat nnn, rfl, Vector.getElem_set_self _,
      fun _ hk => called_stack_ne nnn h hk, same_called nnn h⟩,
    fun h16 => takesFault_of_canFault (.call nnn h16)⟩

/-- Settles O29: `exec_ret_of_entry` with an entry to take, the fault with none. -/
theorem returnPopsIntoPc : Obligations.ReturnPopsIntoPc := fun s =>
  ⟨fun h => ⟨s.returned h, exec_ret_of_entry h, rfl, rfl, rfl, same_returned h⟩,
    fun h0 => takesFault_of_canFault (.ret h0)⟩

/-- Settles O30: the return takes the entry that the call pushed, and nothing between them reads PC. -/
theorem returnUndoesCall : Obligations.ReturnUndoesCall := fun s nnn at' h => by
  have hentry : 1 ≤ ({ s.called nnn h with pc := at' } : State).sp.val := Nat.le_add_left 1 s.sp.val
  refine ⟨s.called nnn h, State.returned _ hentry, exec_call_of_room nnn h, exec_ret_of_entry hentry, ?_, rfl,
    fun k hk => called_stack_ne nnn h (Nat.ne_of_lt hk), fun p hp => ?_⟩
  · exact Vector.getElem_set_self _
  · cases p with
    | stack => exact absurd (List.mem_singleton_self _) hp
    | pc => exact Vector.getElem_set_self _
    | _ => simp [Part.same, State.readByte, State.reg, State.called, State.returned]

/-- Settles O32: the conditions of the two skips are the equality of the two registers, and its negation. -/
theorem skipsOnRegister : Obligations.SkipsOnRegister := fun s x y =>
  ⟨⟨s.skipIf (s.reg x == s.reg y), rfl, fun h => skipIf_pc_taken s (beq_iff_eq.2 h),
      fun h => skipIf_pc_not_taken s (beq_eq_false_iff_ne.2 h), same_skipIf s _⟩,
    ⟨s.skipIf (s.reg x != s.reg y), rfl, fun h => skipIf_pc_taken s (bne_iff_ne.2 h),
      fun h => skipIf_pc_not_taken s (bne_eq_false_iff_eq.2 h), same_skipIf s _⟩⟩

/-- The word of R67 at an address below 4096 is the encoding of the jump to it. -/
theorem jumpWord_eq_encode {a : Word} (ha : a.toNat < 4096) : 0x1000 ||| a = encode (.jp (a.setWidth 12)) := by
  refine BitVec.eq_of_toNat_eq ?_
  have hor : (0x1000 ||| a).toNat = 0x1000 + a.toNat :=
    (BitVec.toNat_or ..).trans (Nat.two_pow_add_eq_or_of_lt (i := 12) ha 1).symm
  rw [hor, encode, toNat_wordFA, BitVec.toNat_setWidth, Nat.mod_eq_of_lt ha]
  rfl

/-- Settles O33: the word at PC decodes to a jump to PC, which puts PC back. -/
theorem jumpToSelfIsStable : Obligations.JumpToSelfIsStable := fun s hterm => by
  obtain ⟨hs, hp, hw⟩ := hterm
  have hd := hw.trans (jumpWord_eq_encode (Nat.lt_of_le_of_lt hp (by decide)))
  have htarget : zextAddr (s.pc.setWidth 12) = s.pc := by
    refine BitVec.eq_of_toNat_eq ?_
    rw [zextAddr_toNat, BitVec.toNat_setWidth, Nat.mod_eq_of_lt (by omega)]
  have hstep := step_of_instr hs (fetchWord_eq_some hp) (decode_eq_ok_iff.2 hd.symm)
  rw [hstep, exec, execJp, htarget]
  rfl

end Sys2Proof.Machine
end

section
/-! SUPPORT. The block transfers at I, in memory and past its end (spec/43_index_memory.md section 3,
spec/20_memory.md section 7), and the obligations on index register and memory. -/

namespace Sys2Proof.Machine

variable {s t : State}

/-- Settles O35: the 16-bit sum is modulo 65536, and 5 times a byte fits 16 bits. -/
theorem indexArithmetic : Obligations.IndexArithmetic := fun s x => by
  have hlt := (s.reg x).isLt
  refine ⟨⟨_, rfl, ?_, same_setIndex s _⟩, _, rfl, ?_, same_setIndex s _⟩
  · rw [BitVec.toNat_add, zextReg_toNat]
  · rw [BitVec.toNat_mul, zextReg_toNat]
    exact Nat.mod_eq_of_lt (by change (s.reg x).toNat * 5 < 65536; omega)

/-! ### Transfers that fit -/

theorem rangeOk_of_fits {k : Nat} (h : s.ea k ≤ 4095) : s.rangeOk (k + 1) = true := by
  rw [rangeOk_succ]
  exact decide_eq_true h

theorem rangeOk_of_not_fits {k : Nat} (h : 4095 < s.ea k) : s.rangeOk (k + 1) = false := by
  rw [rangeOk_succ]
  exact decide_eq_false (Nat.not_le.2 h)

theorem exec_ldB_of_fits (x : RegIdx) (h : s.ea 2 ≤ 4095) :
    exec (.ldB x) s = .next (s.writeBytes s.idx.toNat (bcdDigits (s.reg x))) := by
  simp [exec, execLdB, State.storeBytes, rangeOk_of_fits h, State.ea]

theorem exec_stRegs_of_fits {x : RegIdx} (h : s.ea x.val ≤ 4095) :
    exec (.stRegs x) s = .next (s.writeBytes s.idx.toNat (s.regsUpTo x)) := by
  simp [exec, execStRegs, State.storeBytes, rangeOk_of_fits h, State.ea]

theorem exec_ldRegs_of_fits {x : RegIdx} (h : s.ea x.val ≤ 4095) :
    exec (.ldRegs x) s = .next (s.setRegs ((List.range (x.val + 1)).map fun k => s.readByte (s.ea k))) := by
  simp [exec, execLdRegs, State.loadBytes, rangeOk_of_fits h]

/-- A range fault, with the FINFO of R39. -/
theorem takesRangeFault {i : Instr} {c : FaultCause} (h : CanFault s i c s.firstBad) :
    ∃ t, exec i s = .next t ∧ TakesFault c (max s.idx.toNat 4096) s t := by
  rw [← toNat_firstBad]
  exact takesFault_of_canFault h

/-! ### What a transfer leaves -/

/-- A byte of a block stored at I. -/
theorem readByte_stored (bs : List Byte) {k : Nat} (h : k < bs.length) :
    (s.writeBytes s.idx.toNat bs).readByte (s.ea k) = bs[k] :=
  readByte_writeBytes_inside s s.idx.toNat k bs h

/-- A byte that the block does not reach. -/
theorem readByte_not_stored {bs : List Byte} {m a : Nat} (hlen : bs.length = m + 1) (h : a < s.ea 0 ∨ s.ea m < a) :
    (s.writeBytes s.idx.toNat bs).readByte a = s.readByte a :=
  readByte_writeBytes_outside s s.idx.toNat a bs (by simp only [State.ea] at h; omega)

theorem readByte_stored_reg {x k : RegIdx} (h : k.val ≤ x.val) :
    (s.writeBytes s.idx.toNat (s.regsUpTo x)).readByte (s.ea k.val) = s.reg k := by
  rw [readByte_stored _ (by rw [length_regsUpTo]; omega), getElem_regsUpTo]

/-- The registers after a block load: those up to X are loaded, those above keep their values. -/
theorem reg_setRegs_range (x : RegIdx) (f : Nat → Byte) (k : RegIdx) :
    (s.setRegs ((List.range (x.val + 1)).map f)).reg k = if k.val ≤ x.val then f k.val else s.reg k := by
  rw [reg_setRegs, List.getElem?_map]
  split
  · rw [List.getElem?_range (by omega)]
    rfl
  · rw [List.getElem?_eq_none (by rw [List.length_range]; omega)]
    rfl

/-- The digits of a byte in base 10, the hundreds first (R99). -/
theorem toNat_bcdDigits (a : Byte) (k : Fin 3) :
    ((bcdDigits a)[k.val]'(by rw [length_bcdDigits]; omega)).toNat = a.toNat / 10 ^ (2 - k.val) % 10 := by
  have ha := a.isLt
  match k with
  | 0 => exact (BitVec.toNat_udiv ..).trans (by change a.toNat / 100 = a.toNat / 100 % 10; omega)
  | 1 => exact (BitVec.toNat_umod ..).trans (by rw [BitVec.toNat_udiv]; rfl)
  | 2 => exact (BitVec.toNat_umod ..).trans (by change a.toNat % 10 = a.toNat / 1 % 10; omega)

theorem readByte_stored_digit (x : RegIdx) (k : Fin 3) :
    ((s.writeBytes s.idx.toNat (bcdDigits (s.reg x))).readByte (s.ea k.val)).toNat =
      (s.reg x).toNat / 10 ^ (2 - k.val) % 10 := by
  rw [readByte_stored _ (by rw [length_bcdDigits]; omega), toNat_bcdDigits]

/-- Settles O36: the three digits by `readByte_stored_digit`; the hundreds digit of a byte is below 10. -/
theorem bcdStoresThreeDigits : Obligations.BcdStoresThreeDigits := fun s x => by
  refine ⟨fun h => ⟨_, exec_ldB_of_fits x h, ?_, readByte_stored_digit x 1, ?_,
    fun a ha => readByte_not_stored (length_bcdDigits _) ha, same_writeBytes s _ _⟩,
    fun h => takesRangeFault (.ldB x (rangeOk_of_not_fits h))⟩
  · have hlt := (s.reg x).isLt
    exact (readByte_stored_digit x 0).trans (Nat.mod_eq_of_lt (by change (s.reg x).toNat / 100 < 10; omega))
  · exact (readByte_stored_digit x 2).trans (congrArg (· % 10) (Nat.div_one _))

/-- Settles O37: the registers by `readByte_stored_reg`. -/
theorem storeBlockStoresTheRange : Obligations.StoreBlockStoresTheRange := fun s x =>
  ⟨fun h => ⟨_, exec_stRegs_of_fits h, fun _ hk => readByte_stored_reg hk,
      fun _ ha => readByte_not_stored (length_regsUpTo s x) ha, same_writeBytes s _ _⟩,
    fun h => takesRangeFault (.stRegs x (rangeOk_of_not_fits h))⟩

/-- Settles O38: the registers by `reg_setRegs_range`. -/
theorem loadBlockLoadsTheRange : Obligations.LoadBlockLoadsTheRange := fun s x =>
  ⟨fun h => ⟨_, exec_ldRegs_of_fits h, fun k hk => (reg_setRegs_range x _ k).trans (if_pos hk),
      fun k hk => (reg_setRegs_range x _ k).trans (if_neg (Nat.not_le.2 hk)), same_setRegs s _⟩,
    fun h => takesRangeFault (.ldRegs x (rangeOk_of_not_fits h))⟩

/-- Settles O39: the load reads at the same addresses what the store put there. -/
theorem storeThenLoadRestoresRegisters : Obligations.StoreThenLoadRestoresRegisters := fun s x w at' h => by
  refine ⟨_, _, exec_stRegs_of_fits h,
    exec_ldRegs_of_fits (s := { s.writeBytes s.idx.toNat (s.regsUpTo x) with v := w, pc := at' }) h,
    fun k hk => ?_, fun k hk => (reg_setRegs_range x _ k).trans (if_neg (Nat.not_le.2 hk))⟩
  exact (reg_setRegs_range x _ k).trans ((if_pos hk).trans (readByte_stored_reg hk))

/-- The fetch after a block store at I: each byte of the word is the one stored there, or the old one. -/
theorem fetchWord_stored {bs : List Byte} {m : Nat} (hlen : bs.length = m + 1) (hp : s.pc.toNat ≤ 4094) :
    ∃ hi lo, (s.writeBytes s.idx.toNat bs).fetchWord = some (wordOfBytes hi lo) ∧
      (∀ k (hk : k < bs.length), (s.pc.toNat = s.ea k → hi = bs[k]) ∧ (s.pc.toNat + 1 = s.ea k → lo = bs[k])) ∧
      (s.pc.toNat < s.ea 0 ∨ s.ea m < s.pc.toNat → hi = s.readByte s.pc.toNat) ∧
      (s.pc.toNat + 1 < s.ea 0 ∨ s.ea m < s.pc.toNat + 1 → lo = s.readByte (s.pc.toNat + 1)) :=
  ⟨_, _, fetchWord_eq_some (s := s.writeBytes s.idx.toNat bs) hp,
    fun _ hk => ⟨fun h => h ▸ readByte_stored bs hk, fun h => h ▸ readByte_stored bs hk⟩,
    readByte_not_stored hlen, readByte_not_stored hlen⟩

/-- Settles O40: both stores are block stores, of registers and of digits. -/
theorem storeIsSeenByTheNextFetch : Obligations.StoreIsSeenByTheNextFetch := fun s x hp => by
  refine ⟨fun h => ?_, fun h => ?_⟩
  · obtain ⟨hi, lo, hf, hin, hout⟩ := fetchWord_stored (length_regsUpTo s x) hp
    refine ⟨_, hi, lo, exec_stRegs_of_fits h, hf, fun k hk => ?_, hout⟩
    have hk := hin k.val (by rw [length_regsUpTo]; omega)
    rwa [getElem_regsUpTo] at hk
  · obtain ⟨hi, lo, hf, hin, hout⟩ := fetchWord_stored (length_bcdDigits (s.reg x)) hp
    refine ⟨_, hi, lo, exec_ldB_of_fits x h, hf, fun k => ?_, hout⟩
    have hk := hin k.val (by rw [length_bcdDigits]; omega)
    rw [← toNat_bcdDigits]
    exact ⟨fun he => congrArg BitVec.toNat (hk.1 he), fun he => congrArg BitVec.toNat (hk.2 he)⟩

end Sys2Proof.Machine
end

section
/-! SUPPORT. A sprite drawn cell by cell, in the terms of `spriteBit` (spec/44_display.md sections 1 and 3), and the
obligations on DXYN. -/

namespace Sys2Proof.Machine

variable {s t : State} {vx vy : Byte} {rows : List Byte}

/-- The sprite bit of a cell by its distances from the sprite's corner, which the laws of the drawing loop speak of. -/
theorem spriteBit_eq (vx vy : Byte) (bs : List Byte) (y x : Nat) :
    spriteBit vx vy bs y x =
      (decide (offX vx.toNat x < 8) && ((bs[offY vy.toNat y]?).getD 0).getLsbD (7 - offX vx.toNat x)) := by
  by_cases h : offX vx.toNat x < 8
  · exact (if_pos h).trans (by rw [decide_eq_true h, Bool.true_and]; rfl)
  · exact (if_neg h).trans (by rw [decide_eq_false h, Bool.false_and])

/-- A drawn cell is the old one XORed with the sprite bit aimed at it. -/
theorem drawn_cell (hlen : rows.length ≤ 32) (y x : Nat) :
    (s.drawn vx vy rows).1.cell y x = (s.fb.cell y x ^^ spriteBit vx vy rows y x) := by
  rw [spriteBit_eq]
  exact drawRows_cell vx.toNat rows vy.toNat (s.fb, false) y x hlen

/-- The cell a row and a column of the sprite aim at, going round. -/
theorem cell_offY_offX (fb : Screen) (y0 x0 y x : Nat) : fb.cell (y0 + offY y0 y) (x0 + offX x0 x) = fb.cell y x := by
  have hy : (y0 + offY y0 y) % 32 = y % 32 := ((offY_eq_iff y0 y _ (Nat.mod_lt _ (by decide))).1 rfl).symm
  have hx : (x0 + offX x0 x) % 64 = x % 64 := ((offX_eq_iff x0 x _ (Nat.mod_lt _ (by decide))).1 rfl).symm
  rw [← fb.cell_mod, hy, hx, fb.cell_mod]

/-- The collision flag says that a sprite bit aims at a lit cell. -/
theorem drawn_hit_iff (hlen : rows.length ≤ 32) :
    (s.drawn vx vy rows).2 = true ↔ ∃ y x, s.fb.cell y x = true ∧ spriteBit vx vy rows y x = true := by
  refine (drawRows_hit vx.toNat rows vy.toNat (s.fb, false) hlen).trans ⟨?_, ?_⟩
  · rintro (h | ⟨r, hr, c, hc, hbit, hcell⟩)
    · cases h
    · have hy : offY vy.toNat (vy.toNat + r) = r := (offY_eq_iff _ _ r (by omega)).2 rfl
      have hx : offX vx.toNat (vx.toNat + c) = c := (offX_eq_iff _ _ c (by omega)).2 rfl
      refine ⟨_, _, hcell, ?_⟩
      rw [spriteBit_eq, hy, hx, List.getElem?_eq_getElem hr]
      simp [hc, hbit]
  · rintro ⟨y, x, hcell, hbit⟩
    rw [spriteBit_eq, Bool.and_eq_true, decide_eq_true_iff] at hbit
    obtain ⟨hx, hbit⟩ := hbit
    have hy : offY vy.toNat y < rows.length := by
      by_contra hout
      rw [List.getElem?_eq_none (Nat.not_lt.1 hout)] at hbit
      simp at hbit
    rw [List.getElem?_eq_getElem hy] at hbit
    exact .inr ⟨_, hy, _, hx, hbit, (cell_offY_offX s.fb _ _ y x).trans hcell⟩

theorem drawSprite_flag : (s.drawSprite vx vy rows).reg 15 = flagByte (s.drawn vx vy rows).2 :=
  reg_setReg_self _ _ _

theorem drawSprite_flag_one (hlen : rows.length ≤ 32)
    (h : ∃ y x, s.fb.cell y x = true ∧ spriteBit vx vy rows y x = true) : (s.drawSprite vx vy rows).reg 15 = 1 := by
  rw [drawSprite_flag, (drawn_hit_iff hlen).2 h]
  rfl

theorem drawSprite_flag_zero (hlen : rows.length ≤ 32)
    (h : ∀ y x, s.fb.cell y x = true → spriteBit vx vy rows y x = false) : (s.drawSprite vx vy rows).reg 15 = 0 := by
  have hno : (s.drawn vx vy rows).2 = false := by
    rw [← Bool.not_eq_true, drawn_hit_iff hlen]
    rintro ⟨y, x, hcell, hbit⟩
    exact Bool.false_ne_true ((h y x hcell).symm.trans hbit)
  rw [drawSprite_flag, hno]
  rfl

theorem drawSprite_reg_ne {q : RegIdx} (hq : q ≠ 15) : (s.drawSprite vx vy rows).reg q = s.reg q :=
  reg_setReg_ne _ _ hq

/-- DXYN whose rows all lie in memory draws them; N = 0 reads and draws nothing (D24). -/
theorem exec_drw_of_fits (x y : RegIdx) {n : RowCount} (h : n.val = 0 ∨ s.ea (n.val - 1) ≤ 4095) :
    exec (.drw x y n) s =
      .next (s.drawSprite (s.reg x) (s.reg y) ((List.range n.val).map fun r => s.readByte (s.ea r))) := by
  have hr : s.rangeOk n.val = true := by simpa [State.rangeOk] using h
  simp [exec, execDrw, State.loadBytes, hr]

theorem length_rows_le (n : RowCount) (f : Nat → Byte) : ((List.range n.val).map f).length ≤ 32 := by
  rw [List.length_map, List.length_range]
  omega

/-- Settles O42: the cells by `drawn_cell`, the flag by `drawn_hit_iff`, the fault by its range. -/
theorem drawXorsTheSprite : Obligations.DrawXorsTheSprite := fun s x y n rows hrows => by
  subst hrows
  have hlen := length_rows_le n fun r => s.readByte (s.ea r)
  refine ⟨fun h => ⟨_, exec_drw_of_fits x y h, fun r c => drawn_cell hlen r c, drawSprite_flag_one hlen,
    drawSprite_flag_zero hlen, fun _ hq => drawSprite_reg_ne hq, same_drawSprite s _ _ _⟩, fun ⟨hn, h⟩ => ?_⟩
  exact takesRangeFault (.drw x y n ((rangeOk_eq_false_iff s n.val).2 ⟨hn, h⟩))

/-- Drawing the same sprite again turns every cell back. -/
theorem drawn_drawn_fb (hlen : rows.length ≤ 32) (ht : t.fb = (s.drawn vx vy rows).1) :
    (t.drawn vx vy rows).1 = s.fb :=
  Screen.ext_cell fun y x => by rw [drawn_cell hlen, ht, drawn_cell hlen, Bool.xor_assoc, Bool.xor_self, Bool.xor_false]

/-- A second draw with coordinates other than VF reads the same rows at the same coordinates. -/
theorem exec_drw_again {x y : RegIdx} {n : RowCount} (hx : x ≠ 15) (hy : y ≠ 15)
    (h : n.val = 0 ∨ s.ea (n.val - 1) ≤ 4095) (at' : Word)
    (hrows : rows = (List.range n.val).map fun r => s.readByte (s.ea r)) :
    exec (.drw x y n) { s.drawSprite (s.reg x) (s.reg y) rows with pc := at' } =
      .next ({ s.drawSprite (s.reg x) (s.reg y) rows with pc := at' }.drawSprite (s.reg x) (s.reg y) rows) := by
  have hrx : (s.drawSprite (s.reg x) (s.reg y) rows).reg x = s.reg x := drawSprite_reg_ne hx
  have hry : (s.drawSprite (s.reg x) (s.reg y) rows).reg y = s.reg y := drawSprite_reg_ne hy
  have hexec : exec (.drw x y n) { s.drawSprite (s.reg x) (s.reg y) rows with pc := at' } =
      .next ({ s.drawSprite (s.reg x) (s.reg y) rows with pc := at' }.drawSprite
        ((s.drawSprite (s.reg x) (s.reg y) rows).reg x) ((s.drawSprite (s.reg x) (s.reg y) rows).reg y)
        ((List.range n.val).map fun r => s.readByte (s.ea r))) := exec_drw_of_fits x y h
  rwa [hrx, hry, ← hrows] at hexec

/-- Settles O43: the second draw is `exec_drw_again`, and it finds lit what the first one lit. -/
theorem drawingTwiceRestoresTheScreen : Obligations.DrawingTwiceRestoresTheScreen :=
  fun s x y n rows at' hx hy hrows h => by
    have hlen : rows.length ≤ 32 := hrows ▸ length_rows_le n _
    refine ⟨_, _, hrows ▸ exec_drw_of_fits x y h, exec_drw_again hx hy h at' hrows, drawn_drawn_fb hlen rfl,
      fun hdark ⟨r, c, hbit⟩ => ⟨drawSprite_flag_zero hlen fun r c hcell => ?_,
        drawSprite_flag_one hlen ⟨r, c, ?_, hbit⟩⟩⟩
    · by_contra hne
      rw [hdark r c (Bool.eq_true_of_not_eq_false hne)] at hcell
      cases hcell
    · exact (drawn_cell hlen r c).trans (by rw [hdark r c hbit, hbit]; rfl)

end Sys2Proof.Machine
end

section
/-! SUPPORT. The key instructions (spec/45_keypad_timers.md sections 1 and 2), and the obligation on the two key skips. -/

namespace Sys2Proof.Machine

variable {s : State}

theorem exec_skp_of_key {x : RegIdx} (h : (s.reg x).toNat < 16) :
    exec (.skp x) s = .next (s.skipIf s.key[(s.reg x).toNat]) := by
  simp [exec, execSkp, State.keyAt, h]

theorem exec_sknp_of_key {x : RegIdx} (h : (s.reg x).toNat < 16) :
    exec (.sknp x) s = .next (s.skipIf !s.key[(s.reg x).toNat]) := by
  simp [exec, execSknp, State.keyAt, h]

/-- FINFO of a bad key is the whole byte (R119, R124). -/
theorem takesKeyFault {i : Instr} {b : Byte} (h : CanFault s i .keyIndexOob (b.setWidth 17)) :
    ∃ t, exec i s = .next t ∧ TakesFault .keyIndexOob b.toNat s t := by
  rw [← show (b.setWidth 17).toNat = b.toNat from BitVec.toNat_setWidth_of_le (by decide)]
  exact takesFault_of_canFault h

/-- Settles O45: a skip on the flag of the key, or on its negation; above 15 the fault. -/
theorem keySkipsReadTheFlag : Obligations.KeySkipsReadTheFlag := fun s x =>
  ⟨fun h => ⟨⟨_, exec_skp_of_key h, fun hk => skipIf_pc_taken s hk, fun hk => skipIf_pc_not_taken s hk, same_skipIf s _⟩,
      ⟨_, exec_sknp_of_key h, fun hk => skipIf_pc_taken s (by rw [hk]; rfl),
        fun hk => skipIf_pc_not_taken s (by rw [hk]; rfl), same_skipIf s _⟩⟩,
    fun h => ⟨takesKeyFault (.skp x h), takesKeyFault (.sknp x h)⟩⟩

end Sys2Proof.Machine
end

section
/-! SUPPORT. LOAD, KEY, RESET and the signal binding (spec/60_exceptions.md sections 4 to 9,
spec/70_reset_and_hazards.md section 1, spec/10_state.md section 6), and the obligations on them. -/

namespace Sys2Proof.Machine

variable {s : State}

theorem same_opKey (s : State) (k : Fin 16) (pressed : Bool) : SameExcept [.keys] s (s.opKey k pressed) := fun p hp => by
  cases p with
  | keys => exact absurd (List.mem_singleton_self _) hp
  | _ => simp [Part.same, State.readByte, State.reg]

theorem opKey_key_get (k j : Fin 16) (pressed : Bool) :
    (s.opKey k pressed).key[j.val] = if j.val = k.val then pressed else s.key[j.val] := by
  simp only [opKey_key, Vector.getElem_set, eq_comm]

/-- Settles O49: `perform_key` below 16, and above 15 the error. -/
theorem keyOperationSetsOneFlag : Obligations.KeyOperationSetsOneFlag := fun s k pressed =>
  ⟨fun hk => ⟨_, perform_key hk pressed, fun j => opKey_key_get ⟨k, hk⟩ j pressed, same_opKey s _ pressed⟩,
    fun hk => perform_key_refused (Nat.not_lt.2 hk) pressed⟩

/-- Settles O50: LOAD of an image that fits is one block write at 0x200. -/
theorem loadCopiesTheImage : Obligations.LoadCopiesTheImage := fun s image =>
  ⟨fun h => ⟨_, perform_load (decide_eq_true h), fun j hj => readByte_writeBytes_inside s _ j image hj,
      fun a ha => readByte_writeBytes_outside s _ a image ha, same_writeBytes s _ image⟩,
    fun h => perform_load_refused (decide_eq_false (Nat.not_le.2 h))⟩

/-- Settles O52: the fields of `State.resetWith`, whose empty memory list reads FONT and then 0. -/
theorem resetGivesEveryValue : Obligations.ResetGivesEveryValue := fun s => by
  refine ⟨s.opReset, rfl, fun x => Vector.getElem_replicate .., rfl, rfl, rfl, fun k => Vector.getElem_replicate ..,
    fun a h => dif_pos h, fun a h => dif_neg (Nat.not_lt.2 h), Screen.cell_blank, rfl, rfl,
    fun k => Vector.getElem_replicate .., rfl, rfl, rfl, rfl, fun p hp => ?_⟩
  cases p with
  | font => rfl
  | input => exact ⟨rfl, rfl⟩
  | _ => exact absurd (by decide) hp

theorem soundActive_iff (s : State) : s.soundActive = true ↔ 0 < s.st.toNat := decide_eq_true_iff

/-- Settles O53: `soundActive` reads ST, which FX18 sets, TICK takes down by one and RESET clears. -/
theorem soundActiveFollowsSt : Obligations.SoundActiveFollowsSt := fun s x => by
  refine ⟨⟨_, rfl, (soundActive_iff _).trans ?_⟩, ⟨_, rfl, (soundActive_iff _).trans ?_⟩, _, rfl, rfl⟩
  · rw [Nat.pos_iff_ne_zero, ne_eq, ne_eq, ← BitVec.toNat_inj]
    rfl
  · rw [opTick_st, toNat_tickDown]
    omega

theorem edge_loadByte {p : InPins} {off : Addr12} {b : Byte} (h : p.requests = [.loadByte off b]) :
    edge p s = .next (s.loadByte off b) := by
  rw [edge, h]

/-- Settles O54: by the number of requests; a byte that fits is a block write of one byte. -/
theorem edgeServesAtMostOneRequest : Obligations.EdgeServesAtMostOneRequest := fun p s => by
  refine ⟨fun h => by rw [edge, h], fun op h => by rw [edge, h], fun off b h hoff => ?_, fun off b h hoff => ?_,
    fun h => ?_⟩
  · have hbyte : s.loadByte off b = (.ok, s.writeBytes (Config.progBase + off.toNat) [b]) := if_pos hoff
    refine ⟨s.writeBytes (Config.progBase + off.toNat) [b], by rw [edge_loadByte h, hbyte], ?_, fun a ha => ?_,
      same_writeBytes s _ _⟩
    · exact readByte_writeBytes_inside s _ 0 [b] Nat.zero_lt_one
    · exact readByte_writeBytes_outside s _ a [b] (by
        change a < 0x200 + off.toNat ∨ 0x200 + off.toNat + 1 ≤ a
        omega)
  · have hbyte : s.loadByte off b = (.error .loadTooLarge, s) := if_neg (Nat.not_lt.2 hoff)
    rw [edge_loadByte h, hbyte]
  · match hreq : p.requests with
    | [] | [_] => rw [hreq] at h; exact absurd h (by simp)
    | r :: r' :: rest => cases r <;> rw [edge, hreq]

end Sys2Proof.Machine
end

section
/-! SUPPORT. DT under the host's schedules (spec/60_exceptions.md section 6, spec/70_reset_and_hazards.md section 3), and the
obligation on them. -/

namespace Sys2Proof.Machine

variable {s t u : State} {op : HostOp} {ops : List HostOp} {i : Instr}

/-- A STEP at a word that encodes an instruction, which completes. -/
theorem perform_step_of_instr {b : Byte} (hs : s.status = .running) (hf : s.fetchWord = some (encode i))
    (he : exec i (s.withRnd b).advance = .next t) (ht : t.status = .running) :
    perform (.step b) s = .next (.done, t) := by
  have hd := decode_encode i
  rw [perform_step ((step_of_instr (s := s.withRnd b) hs hf hd).trans he), stepResult_of_instr hf hd ht]

/-! ### One operation -/

/-- A step that runs no FX15 leaves DT. -/
theorem step_dt (h : step s = .next t)
    (hno : s.status = .running → ∀ x, s.fetchWord ≠ some (encode (.ldDtVx x))) : t.dt = s.dt := by
  obtain ⟨-, rfl⟩ | ⟨-, -, rfl⟩ | ⟨hs, hp, ⟨i, hd, he⟩ | ⟨_, -, rfl⟩⟩ := step_cases h
  · rfl
  · rfl
  · by_contra hne
    obtain ⟨x, rfl⟩ := delay_mem_changedParts (mem_changedParts_of_exec he (p := .delay) hne (by decide))
    refine hno hs x ?_
    rw [fetchWord_eq_some hp, encode_of_decode hd]
  · rfl

/-- DT after one operation that runs no FX15: less one at a TICK, 0 at a RESET, else the same. -/
theorem perform_dt {r : OpResult} (hp : perform op s = .next (r, t))
    (hno : ∀ b x, op = .step b → s.status = .running → s.fetchWord ≠ some (encode (.ldDtVx x))) :
    t.dt.toNat ≤ s.dt.toNat - (if op = .tick then 1 else 0) ∧
      (op ≠ .reset → t.dt.toNat = s.dt.toNat - (if op = .tick then 1 else 0)) := by
  by_cases hr : op = .reset
  · subst hr
    cases hp
    exact ⟨Nat.zero_le _, fun h => absurd rfl h⟩
  have heq : t.dt.toNat = s.dt.toNat - (if op = .tick then 1 else 0) := by
    by_cases hb : ∃ b, op = .step b
    · obtain ⟨b, rfl⟩ := hb
      obtain ⟨v, hv⟩ := step_next (s.withRnd b)
      cases hp.symm.trans (perform_step hv)
      rw [if_neg HostOp.noConfusion, Nat.sub_zero]
      exact congrArg BitVec.toNat (step_dt (s := s.withRnd b) hv fun hs x => hno b x rfl hs)
    · obtain ⟨r', t', hp', -, hdt⟩ := perform_between (s := s) (betweenSteps_of_ne hr fun b hop => hb ⟨b, hop⟩)
      cases hp.symm.trans hp'
      rw [hdt]
      split
      · exact toNat_tickDown s.dt
      · rfl
  exact ⟨heq.le, fun _ => heq⟩

/-! ### Schedules -/

theorem count_tick_cons (op : HostOp) (ops : List HostOp) :
    (op :: ops).count .tick = ops.count .tick + if op = .tick then 1 else 0 := by
  simp [List.count_cons]

/-- Any schedule between two STEPs answers, leaves all but memory, timers and keys, and takes its TICKs from DT. -/
theorem runSchedule_between (h : ∀ op ∈ ops, betweenSteps op = true) (s : State) :
    ∃ rs u, runSchedule ops s = .next (rs, u) ∧ rs.length = ops.length ∧
      SameExcept [.memory, .delay, .sound, .keys] s u ∧ u.dt.toNat = s.dt.toNat - ops.count .tick := by
  induction ops generalizing s with
  | nil => exact ⟨[], s, rfl, rfl, SameExcept.refl _ s, rfl⟩
  | cons op ops ih =>
    obtain ⟨r, t, hp, hsame, hdt⟩ := perform_between (s := s) (h op List.mem_cons_self)
    obtain ⟨rs, u, hr, hlen, hsame', hdt'⟩ := ih (fun o ho => h o (List.mem_cons_of_mem _ ho)) t
    refine ⟨r :: rs, u, by rw [runSchedule_cons hp, hr]; rfl, congrArg (· + 1) hlen, hsame.trans hsame', ?_⟩
    rw [hdt', hdt, count_tick_cons]
    split
    · rw [toNat_tickDown]
      omega
    · omega

/-- After its first operation a run still runs no FX15. -/
theorem DelayNotSet.tail {r : OpResult} (h : DelayNotSet (op :: ops) s) (hp : perform op s = .next (r, t)) :
    DelayNotSet ops t := by
  rintro pre b post rs u x rfl hrun
  exact h (op :: pre) b post (r :: rs) u x rfl (by rw [runSchedule_cons hp, hrun]; rfl)

/-- DT under a schedule that runs no FX15: at most what the TICKs leave of it, and exactly that without a RESET. -/
theorem runSchedule_dt (h : DelayNotSet ops s) :
    ∃ rs t, runSchedule ops s = .next (rs, t) ∧ rs.length = ops.length ∧ t.dt.toNat ≤ s.dt.toNat - ops.count .tick ∧
      (.reset ∉ ops → t.dt.toNat = s.dt.toNat - ops.count .tick) := by
  induction ops generalizing s with
  | nil => exact ⟨[], s, rfl, rfl, le_rfl, fun _ => rfl⟩
  | cons op ops ih =>
    obtain ⟨r, v, hp, -⟩ := perform_next op s
    obtain ⟨hle, heq⟩ := perform_dt hp fun b x hop hs => h [] b ops [] s x (by rw [hop]; rfl) rfl hs
    obtain ⟨rs, t, hr, hlen, hle', heq'⟩ := ih (h.tail hp)
    refine ⟨r :: rs, t, by rw [runSchedule_cons hp, hr]; rfl, congrArg (· + 1) hlen, ?_, fun hreset => ?_⟩
    · rw [count_tick_cons]
      omega
    · rw [List.mem_cons, not_or] at hreset
      rw [count_tick_cons, heq' hreset.2, heq (Ne.symm hreset.1)]
      omega

/-- Where TICKs keep arriving, the prefixes hold any number of them from some point on. -/
theorem exists_count_tick {sched : Nat → HostOp} (h : TicksKeepArriving sched) (k : Nat) :
    ∃ n, ∀ m, n ≤ m → k ≤ ((List.range m).map sched).count .tick := by
  induction k with
  | zero => exact ⟨0, fun _ _ => Nat.zero_le _⟩
  | succ k ih =>
    obtain ⟨n, hn⟩ := ih
    obtain ⟨a, ha, htick⟩ := h n
    refine ⟨a + 1, fun m hm => ?_⟩
    have hsub : ((List.range (a + 1)).map sched).count .tick ≤ ((List.range m).map sched).count .tick :=
      ((List.range_sublist.2 hm).map sched).count_le _
    have hlast : ((List.range (a + 1)).map sched).count .tick = ((List.range a).map sched).count .tick + 1 := by
      rw [List.range_succ, List.map_append, List.count_append, List.map_singleton, htick]
      rfl
    have hk := hn a ha
    omega

/-- Settles O60: between STEPs by `runSchedule_between`, with STEPs by `runSchedule_dt`; 255 TICKs bring any DT to 0. -/
theorem delayUnderEverySchedule : Obligations.DelayUnderEverySchedule := by
  refine ⟨fun s x y ops at' hops => ?_, fun s ops hreset hno => ?_, fun s sched hticks hno => ?_⟩
  · obtain ⟨rs, u, hr, hlen, hsame, hdt⟩ := runSchedule_between hops { s with dt := s.reg x }
    exact ⟨_, rs, u, _, rfl, hr, hlen, hsame, rfl, (congrArg BitVec.toNat (reg_setReg_self _ y _)).trans hdt⟩
  · obtain ⟨rs, t, hr, hlen, -, heq⟩ := runSchedule_dt hno
    exact ⟨rs, t, hr, hlen, heq hreset⟩
  · obtain ⟨n, hn⟩ := exists_count_tick hticks 255
    refine ⟨n, fun m hm => ?_⟩
    obtain ⟨rs, t, hr, -, hle, -⟩ := runSchedule_dt (hno m)
    have hzero : t.dt = 0 := by
      have hcount := hn m hm
      have hlt := s.dt.isLt
      exact BitVec.eq_of_toNat_eq (Nat.eq_zero_of_le_zero (by omega))
    refine ⟨rs, t, hr, hzero, fun b y hstep hs hf => ?_⟩
    have hp : perform (sched m) t = .next (.done, (t.withRnd b).advance.setReg y t.dt) := by
      rw [hstep]
      exact perform_step_of_instr hs hf rfl hs
    exact ⟨_, runFor_succ hr hp, (reg_setReg_self _ y _).trans hzero⟩

end Sys2Proof.Machine
end

section
/-! SUPPORT. The wait of FX0A under the host's schedules (spec/45_keypad_timers.md section 2, spec/60_exceptions.md section
11), and the obligation on it. -/

namespace Sys2Proof.Machine

variable {s t u v : State} {x : RegIdx} {op : HostOp} {r : OpResult}

theorem exec_ldVxK_of_key {k : Fin 16} (h : s.firstKey = some k) :
    exec (.ldVxK x) s = .next (s.setReg x (BitVec.ofNat 8 k.val)) := by
  simp only [exec, execLdVxK, h]

theorem exec_ldVxK_of_no_key (h : s.firstKey = none) : exec (.ldVxK x) s = .next s.rewind := by
  simp only [exec, execLdVxK, h]

theorem rewind_advance (s : State) : s.advance.rewind = s := by
  simp [State.advance, State.rewind]

/-- A waiting STEP leaves the whole state as it was. -/
theorem step_of_waiting (hs : s.status = .running) (hf : s.fetchWord = some (encode (.ldVxK x)))
    (hk : s.firstKey = none) : step s = .next s := by
  rw [step_of_instr hs hf (decode_encode _), exec_ldVxK_of_no_key (s := s.advance) hk, rewind_advance]

/-! ### What the host leaves of the instruction and of a pressed key -/

/-- A block write that misses both bytes of the word at PC leaves the fetch. -/
theorem fetchWord_writeBytes_outside {a : Nat} {bs : List Byte} (h : s.pc.toNat + 2 ≤ a ∨ a + bs.length ≤ s.pc.toNat) :
    (s.writeBytes a bs).fetchWord = s.fetchWord := by
  rw [State.fetchWord, State.fetchWord, writeBytes_pc, readByte_writeBytes_outside s a _ bs (by omega),
    readByte_writeBytes_outside s a _ bs (by omega)]

/-- An operation between two STEPs that spares the word at PC leaves the fetch. -/
theorem fetchWord_of_spares (hb : betweenSteps op = true) (hsp : op.spares s.pc.toNat = true)
    (hp : perform op s = .next (r, t)) : t.fetchWord = s.fetchWord := by
  obtain rfl | rfl | ⟨image, rfl, hi, rfl⟩ | ⟨k, pressed, -, rfl⟩ := perform_between_cases hb hp
  · rfl
  · rfl
  · refine fetchWord_writeBytes_outside ?_
    simp only [HostOp.spares, hi, Bool.not_true, Bool.false_or, Bool.or_eq_true, decide_eq_true_iff] at hsp
    exact hsp.symm
  · rfl

/-- A key stays pressed under an operation between two STEPs that does not release it. -/
theorem key_of_not_released {k : Nat} (hk : k < 16) (hb : betweenSteps op = true) (hne : op ≠ .key k false)
    (hp : perform op s = .next (r, t)) (hkey : s.key[k] = true) : t.key[k] = true := by
  obtain rfl | rfl | ⟨image, -, -, rfl⟩ | ⟨j, pressed, rfl, rfl⟩ := perform_between_cases hb hp
  · exact hkey
  · exact hkey
  · exact hkey
  · refine (opKey_key_get j ⟨k, hk⟩ pressed).trans ?_
    split
    · rename_i hkj
      have hkj : k = j.val := hkj
      subst hkj
      exact (Bool.eq_false_or_eq_true pressed).resolve_right fun hrel => hne (by rw [hrel])
    · exact hkey

/-! ### Waiting -/

/-- `u` is `s` still waiting for a key at its FX0A. -/
structure Waiting (x : RegIdx) (s u : State) : Prop where
  same : SameExcept [.memory, .delay, .sound, .keys, .input] s u
  fetch : u.fetchWord = some (encode (.ldVxK x))

theorem Waiting.pc (h : Waiting x s u) : u.pc = s.pc := h.same .pc (by decide)

theorem Waiting.running (h : Waiting x s u) (hs : s.status = .running) : u.status = .running :=
  (h.same .fault (by decide)).1.trans hs

/-- The operations between two STEPs keep the machine waiting. -/
theorem Waiting.between (h : Waiting x s u) (hb : betweenSteps op = true) (hsp : op.spares s.pc.toNat = true)
    (hp : perform op u = .next (r, v)) : Waiting x s v := by
  obtain ⟨r', v', hp', hsame, -⟩ := perform_between (s := u) hb
  cases hp.symm.trans hp'
  rw [← h.pc] at hsp
  exact ⟨h.same.trans (hsame.mono (by simp)), (fetchWord_of_spares hb hsp hp).trans h.fetch⟩

/-- A STEP with no key pressed keeps the machine waiting. -/
theorem Waiting.step (h : Waiting x s u) (hs : s.status = .running) (hk : u.firstKey = none) {b : Byte}
    (hp : perform (.step b) u = .next (r, v)) : Waiting x s v := by
  have hstep : Machine.step (u.withRnd b) = .next (u.withRnd b) :=
    step_of_waiting (s := u.withRnd b) (h.running hs) h.fetch hk
  cases hp.symm.trans (perform_step hstep)
  refine ⟨h.same.trans fun p hpart => ?_, h.fetch⟩
  cases p with
  | input => exact absurd (by decide) hpart
  | _ => simp [Part.same, State.readByte, State.reg]

/-! ### Endless schedules -/

section
variable {sched : Nat → HostOp}

/-- A STEP at `n` finds the machine waiting with a key pressed. -/
def WaitEndsAt (sched : Nat → HostOp) (x : RegIdx) (s : State) (n : Nat) : Prop :=
  ∃ b rs u k, sched n = .step b ∧ runFor sched n s = .next (rs, u) ∧ Waiting x s u ∧ u.firstKey = some k

/-- As long as no STEP has found a key, the machine waits. -/
theorem waiting_of_not_ended (hsp : ∀ n, (sched n).spares s.pc.toNat = true) (hs : s.status = .running)
    (hf : s.fetchWord = some (encode (.ldVxK x))) (hno : ∀ n, ¬WaitEndsAt sched x s n) (n : Nat) :
    ∃ rs u, runFor sched n s = .next (rs, u) ∧ Waiting x s u := by
  induction n with
  | zero => exact ⟨[], s, rfl, SameExcept.refl _ s, hf⟩
  | succ n ih =>
    obtain ⟨rs, u, hr, hw⟩ := ih
    obtain ⟨r, v, hp, -⟩ := perform_next (sched n) u
    refine ⟨_, v, runFor_succ hr hp, ?_⟩
    by_cases hstep : ∃ b, sched n = .step b
    · obtain ⟨b, hb⟩ := hstep
      have hkey : u.firstKey = none := Option.eq_none_iff_forall_not_mem.2 fun k hk =>
        hno n ⟨b, rs, u, k, hb, hr, hw, hk⟩
      rw [hb] at hp
      exact hw.step hs hkey hp
    · have hreset : sched n ≠ .reset := fun h => by
        have := hsp n
        rw [h] at this
        cases this
      exact hw.between (betweenSteps_of_ne hreset fun b hb => hstep ⟨b, hb⟩) (hsp n) hp

/-- A key pressed at `m` and not released before the next STEP is still pressed at every operation up to it. -/
theorem key_pressed_until_step {k m n : Nat} (hk : k < 16) (hpress : sched m = .key k true) (hmn : m < n)
    (hbetween : ∀ j, m < j → j < n → betweenSteps (sched j) = true ∧ sched j ≠ .key k false)
    (hrun : ∀ j, ∃ rs u, runFor sched j s = .next (rs, u)) :
    ∀ rs u, runFor sched n s = .next (rs, u) → u.key[k] = true := by
  induction n, hmn using Nat.le_induction with
  | base =>
    intro rs u hr
    obtain ⟨rs', u', hr'⟩ := hrun m
    have hp : perform (sched m) u' = .next (.ok, u'.opKey ⟨k, hk⟩ true) := hpress ▸ perform_key hk true
    cases hr.symm.trans (runFor_succ hr' hp)
    exact (opKey_key_get ⟨k, hk⟩ ⟨k, hk⟩ true).trans (if_pos rfl)
  | succ n hmn ih =>
    intro rs u hr
    obtain ⟨rs', u', hr'⟩ := hrun n
    obtain ⟨r, v, hp, -⟩ := perform_next (sched n) u'
    cases hr.symm.trans (runFor_succ hr' hp)
    obtain ⟨hb, hne⟩ := hbetween n hmn (Nat.lt_succ_self n)
    exact key_of_not_released hk hb hne hp
      (ih (fun j hmj hjn => hbetween j hmj (hjn.trans (Nat.lt_succ_self n))) rs' u' hr')

/-- The first STEP after an operation, where STEPs keep coming. -/
theorem exists_next_step (h : StepsKeepComing sched) (m : Nat) :
    ∃ n b, m < n ∧ sched n = .step b ∧ ∀ j, m < j → j < n → ∀ b, sched j ≠ .step b := by
  classical
  have hex : ∃ n, m < n ∧ ∃ b, sched n = .step b :=
    have ⟨n, b, hn, hb⟩ := h (m + 1)
    ⟨n, hn, b, hb⟩
  obtain ⟨hlt, b, hb⟩ := Nat.find_spec hex
  exact ⟨Nat.find hex, b, hlt, hb, fun j hmj hj b' hb' => Nat.find_min hex hj ⟨hmj, b', hb'⟩⟩

/-- Where STEPs keep coming and key events arrive, the wait ends: a key pressed and not released before the next STEP is
found by it, unless an earlier STEP found one. -/
theorem exists_waitEndsAt (hsp : ∀ n, (sched n).spares s.pc.toNat = true) (hsteps : StepsKeepComing sched)
    (hkeys : KeyEventsArrive sched) (hs : s.status = .running) (hf : s.fetchWord = some (encode (.ldVxK x))) :
    ∃ n, WaitEndsAt sched x s n := by
  by_contra hnone
  have hwait := waiting_of_not_ended hsp hs hf fun n hn => hnone ⟨n, hn⟩
  obtain ⟨m, k, -, hk, hpress, hheld⟩ := hkeys 0
  obtain ⟨n, b, hmn, hstep, hfirst⟩ := exists_next_step hsteps m
  have hbetween : ∀ j, m < j → j < n → betweenSteps (sched j) = true ∧ sched j ≠ .key k false := fun j hmj hjn => by
    refine ⟨betweenSteps_of_ne (fun h => ?_) (hfirst j hmj hjn), fun hrel => ?_⟩
    · have := hsp j
      rw [h] at this
      cases this
    · obtain ⟨i, b', hmi, hij, hi⟩ := hheld j hmj hrel
      exact hfirst i hmi (hij.trans hjn) b' hi
  obtain ⟨rs, u, hr, hw⟩ := hwait n
  have hkey := key_pressed_until_step hk hpress hmn hbetween
    (fun j => have ⟨rs, u, hr, _⟩ := hwait j; ⟨rs, u, hr⟩) rs u hr
  cases hfound : u.firstKey with
  | none => exact Bool.false_ne_true (((firstKey_eq_none u).1 hfound ⟨k, hk⟩).symm.trans hkey)
  | some k' => exact hnone ⟨n, b, rs, u, k', hstep, hr, hw, hfound⟩

end

/-- Settles O46: the least key by `firstKey_eq_some`, the waiting STEP by `step_of_waiting`, the end of the wait by
`exists_waitEndsAt` and the STEP that finds the key. -/
theorem keyWaitTakesTheLeastKey : Obligations.KeyWaitTakesTheLeastKey := fun s x => by
  refine ⟨fun k hk hleast => ⟨_, exec_ldVxK_of_key ((firstKey_eq_some s).2 ⟨hk, hleast⟩), onlyReg_setReg s x _⟩,
    fun hno => ?_, fun sched hsp hsteps hkeys hs hf => ?_⟩
  · have hnone := (firstKey_eq_none s).2 hno
    refine ⟨exec_ldVxK_of_no_key hnone, fun hp hw => ?_⟩
    cases hs : s.status with
    | faulted => exact step_of_faulted hs
    | running => exact step_of_waiting hs ((fetchWord_eq_some hp).trans (congrArg some hw)) hnone
  · obtain ⟨n, b, rs, u, k, hstep, hr, hw, hkey⟩ := exists_waitEndsAt hsp hsteps hkeys hs hf
    obtain ⟨hpressed, hleast⟩ := (firstKey_eq_some u).1 hkey
    have hrun := hw.running hs
    have hp : perform (sched n) u = .next (.done, (u.withRnd b).advance.setReg x (BitVec.ofNat 8 k.val)) := by
      rw [hstep]
      exact perform_step_of_instr hrun hw.fetch (exec_ldVxK_of_key (s := (u.withRnd b).advance) hkey) hrun
    refine ⟨n, b, rs, u, _, k, hstep, hr, hw.same, hpressed, hleast, runFor_succ hr hp, congrArg (· + 2) hw.pc,
      reg_setReg_self _ x _, fun q hq => (reg_setReg_ne _ _ hq).trans (hw.same .regs (by decide) q), fun p hpart => ?_⟩
    cases p with
    | regs | pc | input => exact absurd (by decide) hpart
    | _ => simp [Part.same, State.readByte]

end Sys2Proof.Machine
end
